-- ==== Sys2Proof/Word.lean ====
section
/-! DEFINITION. The words of the block: a buffer byte, a command word, the DATA operand and a response
(00_scope.md R4 and R15, 30_encoding.md R80). -/

namespace Sys2Proof

/-- One byte of the frame buffer (20_memory.md R60: the unit of addressing is the byte). -/
abbrev Byte := BitVec 8

/-- The 32-bit command word of a transaction (30_encoding.md R80). -/
abbrev CommandWord := BitVec 32

/-- The 64-bit DATA operand of a command, and the 64-bit value of a response (30_encoding.md R80). -/
abbrev Data := BitVec 64

/-- The response of one command: a 64-bit value, or no value (`respond none`, 30_encoding.md R80). -/
abbrev Response := Option Data

end Sys2Proof
end

