-- ==== Sys2Proof/Config.lean ====
section
/-! DEFINITION. What is fixed for the block and never changes as it runs: the parameters of 00_scope.md
section 4 and the parameter sets of the checksum unit. -/

namespace Sys2Proof.Config

/-- `CAP`, the capacity of the frame buffer in bytes. "This hardware takes `CAP = 256`" (00_scope.md R8).
DESIGN CHOICE (log 1): the model fixes 256 and does not take the range 8..256 the rule allows. -/
def cap : Nat := 256

/-- `COBS_OVH`: the COBS leading byte and the trailing delimiter byte (00_scope.md R9). -/
def cobsOvh : Nat := 2

/-- `CRC_OVH`: the width of the stored CRC32 in bytes (00_scope.md R9). -/
def crcOvh : Nat := 4

/-- `TOTAL_OVH` (00_scope.md R9). -/
def totalOvh : Nat := cobsOvh + crcOvh

/-- `HDR`, the header's width in bytes (00_scope.md R9). -/
def hdr : Nat := 2

/-- `MIN_FRAME = TOTAL_OVH + HDR`, the shortest frame PARSE accepts (00_scope.md R13). -/
def minFrame : Nat := totalOvh + hdr

/-- The largest body, header plus application payload (00_scope.md R10). -/
def maxBody : Nat := cap - totalOvh

/-- The largest application payload: the narrower of the 8-bit size field and the capacity (00_scope.md R10). -/
def maxPayload : Nat := min 255 (cap - totalOvh - hdr)

/-- The frame delimiter (00_scope.md R14). -/
def delimiter : Byte := 0x00

/-- A parameter set of a 32-bit CRC (`CRC32_PARAMS`, 41_checksum.md R141). `polyReversed` is the polynomial with
its bits reversed, the form the shift-right loop of R142 uses. -/
structure Crc32Params where
  polyReversed : BitVec 32
  initial      : BitVec 32
  reflectIn    : Bool
  reflectOut   : Bool
  finalXor     : BitVec 32
  deriving DecidableEq, Repr

/-- `CRC32_PARAMS` at its default, CRC-32/ISO-HDLC (41_checksum.md R141). PRESUMED (log 2): the spec itself takes the
set from general knowledge, and D7 keeps it a named parameter with this default. -/
def crc32Params : Crc32Params where
  polyReversed := 0xEDB88320
  initial      := 0xFFFFFFFF
  reflectIn    := true
  reflectOut   := true
  finalXor     := 0xFFFFFFFF

/-- The reflected polynomial of CRC16/MCRF4XX (41_checksum.md R144). -/
def crc16Poly : BitVec 16 := 0x8408

/-- Which of the 255 assignable ids, 1 to 255, the actuator-command message has. A free value: it has no body, so nothing can
be proved of its value (log 11). -/
opaque actuatorIdChoice : Fin 255

/-- `ACTUATOR_ID`: the id of the actuator-command message, which no source gives (43_header_layout.md R188,
93_implementation_defined.md item 16): any id but 0, which "must never be assigned to a real variant" (R182). -/
def actuatorId : Byte := BitVec.ofNat 8 (actuatorIdChoice.val + 1)

end Sys2Proof.Config
end

