-- ==== Sys2Proof/Syntax.lean ====
section
/-! DEFINITION. The 25 commands of the block (30_encoding.md R83), one constructor per row of opcode_table.json.
A constructor carries the command-word fields its row uses and the part of DATA its row uses (R82). -/

namespace Sys2Proof

/-- One command. `start` and `len` are the fields START and LEN, unsigned numbers with no scaling (30_encoding.md R82);
`r` and `w` are the two bits of MODE (R81); `b`, `v` and `seed` are the used low bits of DATA (R82). -/
inductive Instr where
  /-- RESET, OP 0x01 (44_packet.md R204). -/
  | reset
  /-- ADDB, OP 0x02; `b` is `DATA[7:0]` (44_packet.md R201). -/
  | addb (b : Byte)
  /-- COMPLETE, OP 0x03 (44_packet.md R205). -/
  | complete
  /-- STATUS, OP 0x04 (44_packet.md R206). -/
  | status
  /-- PARSE, OP 0x05 (44_packet.md R210). -/
  | parse
  /-- PACKETIZE, OP 0x06 (44_packet.md R220). -/
  | packetize
  /-- BUFRD, OP 0x08 (45_buffer_port.md R240). -/
  | bufrd (start : Nat)
  /-- BUFWR, OP 0x09; `b` is `DATA[7:0]` (45_buffer_port.md R241). -/
  | bufwr (start : Nat) (b : Byte)
  /-- COBSENC, OP 0x10 (42_cobs.md R162). -/
  | cobsenc (start len : Nat)
  /-- COBSDEC, OP 0x11 (42_cobs.md R165). -/
  | cobsdec (start len : Nat)
  /-- CRC32, OP 0x18 (41_checksum.md R143). -/
  | crc32 (start len : Nat)
  /-- CRC16, OP 0x19; `seed` is `DATA[15:0]` (41_checksum.md R145). -/
  | crc16 (start len : Nat) (seed : BitVec 16)
  /-- CUROPEN, OP 0x20; `r` is bit 26 (source present), `w` bit 27 (mutable target) (40_primitive_codec.md R102). -/
  | curopen (start : Nat) (r w : Bool)
  /-- CURPOS, OP 0x21 (40_primitive_codec.md R103). -/
  | curpos
  /-- PUT8, OP 0x28; `v` is `DATA[7:0]` (40_primitive_codec.md R110). -/
  | put8 (v : BitVec 8)
  /-- PUT16, OP 0x29; `v` is `DATA[15:0]` (40_primitive_codec.md R111). -/
  | put16 (v : BitVec 16)
  /-- PUT32, OP 0x2A; `v` is `DATA[31:0]` (40_primitive_codec.md R112). -/
  | put32 (v : BitVec 32)
  /-- PUT64, OP 0x2B; `v` is all of DATA (40_primitive_codec.md R113). -/
  | put64 (v : BitVec 64)
  /-- GETU8, OP 0x30 (40_primitive_codec.md R121). -/
  | getu8
  /-- GETU16, OP 0x31 (40_primitive_codec.md R122). -/
  | getu16
  /-- GETU32, OP 0x32 (40_primitive_codec.md R123). -/
  | getu32
  /-- GET64, OP 0x33 (40_primitive_codec.md R124). -/
  | get64
  /-- GETS8, OP 0x34 (40_primitive_codec.md R125). -/
  | gets8
  /-- GETS16, OP 0x35 (40_primitive_codec.md R126). -/
  | gets16
  /-- GETS32, OP 0x36 (40_primitive_codec.md R127). -/
  | gets32
  deriving DecidableEq, Repr

end Sys2Proof
end

