-- ==== Sys2Proof/WellFormed.lean ====
section
/-! DEFINITION. When a command can be written in a command word: its START and LEN fit their 9-bit fields
(00_scope.md R19, 30_encoding.md R81; the assembler refuses others, R90). The other operands have the width of their
field by their type. -/

namespace Sys2Proof

/-- A number that a 9-bit field of the command word can hold: `0..511` (00_scope.md R19). -/
abbrev FitsField (n : Nat) : Prop := n < 512

/-- The command's START and LEN fit their fields. -/
def Instr.wellFormed : Instr → Bool
  | .bufrd s | .bufwr s _ | .curopen s _ _ => decide (FitsField s)
  | .cobsenc s l | .cobsdec s l | .crc32 s l | .crc16 s l _ => decide (FitsField s) && decide (FitsField l)
  | .reset | .addb _ | .complete | .status | .parse | .packetize | .curpos
  | .put8 _ | .put16 _ | .put32 _ | .put64 _
  | .getu8 | .getu16 | .getu32 | .get64 | .gets8 | .gets16 | .gets32 => true

end Sys2Proof
end

