-- ==== Sys2Proof/Decode.lean ====
section
/-! DEFINITION. Decoding a transaction into a command, total on every word and rejecting by name (30_encoding.md
R81 to R87), and the encoder written from the same table. -/

namespace Sys2Proof

/-- `v[lo+width-1 : lo]` as an unsigned number (00_scope.md R15). -/
def bitField (v lo width : Nat) : Nat := v / 2 ^ lo % 2 ^ width

/-- OP, `w[7:0]` (30_encoding.md R81). -/
def opOf (w : CommandWord) : Nat := bitField w.toNat 0 8

/-- START, `w[16:8]` (30_encoding.md R81). -/
def startOf (w : CommandWord) : Nat := bitField w.toNat 8 9

/-- LEN, `w[25:17]` (30_encoding.md R81). -/
def lenOf (w : CommandWord) : Nat := bitField w.toNat 17 9

/-- MODE, `w[27:26]` (30_encoding.md R81). -/
def modeOf (w : CommandWord) : Nat := bitField w.toNat 26 2

/-- RSV, `w[31:28]` (30_encoding.md R81). -/
def rsvOf (w : CommandWord) : Nat := bitField w.toNat 28 4

/-- MODE bit 0, word bit 26: R, a source is present (30_encoding.md R81). -/
def modeR (w : CommandWord) : Bool := decide (modeOf w % 2 = 1)

/-- MODE bit 1, word bit 27: W, a mutable target (30_encoding.md R81). -/
def modeW (w : CommandWord) : Bool := decide (modeOf w / 2 % 2 = 1)

/-- The four field layouts of opcode_table.json (30_encoding.md R84). -/
inductive Layout where
  /-- `cmd`: no fields. -/
  | cmd
  /-- `cmd.start`: START. -/
  | cmdStart
  /-- `cmd.start.len`: START and LEN. -/
  | cmdStartLen
  /-- `cmd.start.mode`: START and MODE. -/
  | cmdStartMode
  deriving DecidableEq, Repr

/-- Every field the layout does not use is 0 (30_encoding.md R85 (c)). -/
def unusedFieldsZero (l : Layout) (w : CommandWord) : Bool :=
  match l with
  | .cmd          => startOf w == 0 && lenOf w == 0 && modeOf w == 0
  | .cmdStart     => lenOf w == 0 && modeOf w == 0
  | .cmdStartLen  => modeOf w == 0
  | .cmdStartMode => lenOf w == 0

/-- Why a command word is illegal (30_encoding.md R85); all three raise `ILLEGAL_COMMAND`. -/
inductive Illegal where
  /-- R85 (a): OP is not in the table of R83. -/
  | unassignedOp
  /-- R85 (b): a 1 bit in RSV [31:28]. -/
  | reservedBits
  /-- R85 (c): a 1 bit in a field the command does not use. -/
  | unusedField
  deriving DecidableEq, Repr

/-- The row of the opcode map that an OP selects: its layout, and its command with the operands taken from the word and
from DATA (30_encoding.md R82 and R83). -/
def opcodeRow (op : Nat) (w : CommandWord) (d : Data) : Option (Layout × Instr) :=
  match op with
  | 0x01 => some (.cmd, .reset)
  | 0x02 => some (.cmd, .addb (d.setWidth 8))
  | 0x03 => some (.cmd, .complete)
  | 0x04 => some (.cmd, .status)
  | 0x05 => some (.cmd, .parse)
  | 0x06 => some (.cmd, .packetize)
  | 0x08 => some (.cmdStart, .bufrd (startOf w))
  | 0x09 => some (.cmdStart, .bufwr (startOf w) (d.setWidth 8))
  | 0x10 => some (.cmdStartLen, .cobsenc (startOf w) (lenOf w))
  | 0x11 => some (.cmdStartLen, .cobsdec (startOf w) (lenOf w))
  | 0x18 => some (.cmdStartLen, .crc32 (startOf w) (lenOf w))
  | 0x19 => some (.cmdStartLen, .crc16 (startOf w) (lenOf w) (d.setWidth 16))
  | 0x20 => some (.cmdStartMode, .curopen (startOf w) (modeR w) (modeW w))
  | 0x21 => some (.cmd, .curpos)
  | 0x28 => some (.cmd, .put8 (d.setWidth 8))
  | 0x29 => some (.cmd, .put16 (d.setWidth 16))
  | 0x2A => some (.cmd, .put32 (d.setWidth 32))
  | 0x2B => some (.cmd, .put64 d)
  | 0x30 => some (.cmd, .getu8)
  | 0x31 => some (.cmd, .getu16)
  | 0x32 => some (.cmd, .getu32)
  | 0x33 => some (.cmd, .get64)
  | 0x34 => some (.cmd, .gets8)
  | 0x35 => some (.cmd, .gets16)
  | 0x36 => some (.cmd, .gets32)
  | _    => none

/-- Decode a transaction (30_encoding.md R84, the steps after the FAULT test). Total; every illegal word is refused by
name (R85). -/
def decode (w : CommandWord) (d : Data) : Except Illegal Instr :=
  match opcodeRow (opOf w) w d with
  | none => .error .unassignedOp
  | some (l, i) =>
    if rsvOf w ≠ 0 then .error .reservedBits
    else if unusedFieldsZero l w then .ok i
    else .error .unusedField

/-! ### The table as masks and matches (30_encoding.md R84) -/

/-- One row of opcode_table.json: mnemonic, OP and field layout. -/
structure OpcodeRow where
  mnemonic : String
  op       : Nat
  layout   : Layout
  deriving DecidableEq, Repr

/-- `match(row)`: "`OP` with all other bits 0" (30_encoding.md R84). -/
def OpcodeRow.matchWord (r : OpcodeRow) : CommandWord := BitVec.ofNat 32 r.op

/-- `mask(row)` by layout (30_encoding.md R84). -/
def OpcodeRow.mask (r : OpcodeRow) : CommandWord :=
  match r.layout with
  | .cmd          => 0xFFFFFFFF
  | .cmdStart     => 0xFFFE00FF
  | .cmdStartLen  => 0xFC0000FF
  | .cmdStartMode => 0xF3FE00FF

/-- The rows of opcode_table.json, in its order (30_encoding.md R83). -/
def opcodeTable : List OpcodeRow :=
  [⟨"RESET", 0x01, .cmd⟩, ⟨"ADDB", 0x02, .cmd⟩, ⟨"COMPLETE", 0x03, .cmd⟩, ⟨"STATUS", 0x04, .cmd⟩,
   ⟨"PARSE", 0x05, .cmd⟩, ⟨"PACKETIZE", 0x06, .cmd⟩, ⟨"BUFRD", 0x08, .cmdStart⟩, ⟨"BUFWR", 0x09, .cmdStart⟩]
  ++ [⟨"COBSENC", 0x10, .cmdStartLen⟩, ⟨"COBSDEC", 0x11, .cmdStartLen⟩, ⟨"CRC32", 0x18, .cmdStartLen⟩,
   ⟨"CRC16", 0x19, .cmdStartLen⟩, ⟨"CUROPEN", 0x20, .cmdStartMode⟩, ⟨"CURPOS", 0x21, .cmd⟩]
  ++ [⟨"PUT8", 0x28, .cmd⟩, ⟨"PUT16", 0x29, .cmd⟩, ⟨"PUT32", 0x2A, .cmd⟩, ⟨"PUT64", 0x2B, .cmd⟩]
  ++ [⟨"GETU8", 0x30, .cmd⟩, ⟨"GETU16", 0x31, .cmd⟩, ⟨"GETU32", 0x32, .cmd⟩, ⟨"GET64", 0x33, .cmd⟩,
   ⟨"GETS8", 0x34, .cmd⟩, ⟨"GETS16", 0x35, .cmd⟩, ⟨"GETS32", 0x36, .cmd⟩]

/-- A word matches a row: `(w & mask(row)) = match(row)` (30_encoding.md R84). -/
def OpcodeRow.matches (r : OpcodeRow) (w : CommandWord) : Bool := (w &&& r.mask) == r.matchWord

/-! ### The encoder -/

/-- "`word = OP | (START << 8) | (LEN << 17) | (MODE << 26)`" (30_encoding.md R81); the fields of a well-formed command do
not overlap, so the sum is the or. -/
def wordOf (op start len mode : Nat) : CommandWord :=
  BitVec.ofNat 32 (op + start * 2 ^ 8 + len * 2 ^ 17 + mode * 2 ^ 26)

/-- The two bits of MODE as a number: bit 0 = R, bit 1 = W (30_encoding.md R81). -/
def modeBits (r w : Bool) : Nat := r.toNat + 2 * w.toNat

/-- The transaction that presents a command: its word, and DATA with every ignored bit 0 (30_encoding.md R81 to R83). -/
def encode : Instr → CommandWord × Data
  | .reset          => (wordOf 0x01 0 0 0, 0)
  | .addb b         => (wordOf 0x02 0 0 0, b.setWidth 64)
  | .complete       => (wordOf 0x03 0 0 0, 0)
  | .status         => (wordOf 0x04 0 0 0, 0)
  | .parse          => (wordOf 0x05 0 0 0, 0)
  | .packetize      => (wordOf 0x06 0 0 0, 0)
  | .bufrd s        => (wordOf 0x08 s 0 0, 0)
  | .bufwr s b      => (wordOf 0x09 s 0 0, b.setWidth 64)
  | .cobsenc s l    => (wordOf 0x10 s l 0, 0)
  | .cobsdec s l    => (wordOf 0x11 s l 0, 0)
  | .crc32 s l      => (wordOf 0x18 s l 0, 0)
  | .crc16 s l seed => (wordOf 0x19 s l 0, seed.setWidth 64)
  | .curopen s r w  => (wordOf 0x20 s 0 (modeBits r w), 0)
  | .curpos         => (wordOf 0x21 0 0 0, 0)
  | .put8 v         => (wordOf 0x28 0 0 0, v.setWidth 64)
  | .put16 v        => (wordOf 0x29 0 0 0, v.setWidth 64)
  | .put32 v        => (wordOf 0x2A 0 0 0, v.setWidth 64)
  | .put64 v        => (wordOf 0x2B 0 0 0, v)
  | .getu8          => (wordOf 0x30 0 0 0, 0)
  | .getu16         => (wordOf 0x31 0 0 0, 0)
  | .getu32         => (wordOf 0x32 0 0 0, 0)
  | .get64          => (wordOf 0x33 0 0 0, 0)
  | .gets8          => (wordOf 0x34 0 0 0, 0)
  | .gets16         => (wordOf 0x35 0 0 0, 0)
  | .gets32         => (wordOf 0x36 0 0 0, 0)

/-- How many low bits of DATA a command uses (30_encoding.md R82); the bits above are ignored. -/
def dataBitsUsed : Instr → Nat
  | .addb _ | .bufwr _ _ | .put8 _ => 8
  | .crc16 _ _ _ | .put16 _ => 16
  | .put32 _ => 32
  | .put64 _ => 64
  | .reset | .complete | .status | .parse | .packetize | .bufrd _ | .cobsenc _ _ | .cobsdec _ _ | .crc32 _ _
  | .curopen _ _ _ | .curpos | .getu8 | .getu16 | .getu32 | .get64 | .gets8 | .gets16 | .gets32 => 0

/-- What the decoder reads from an instruction of opcode_table.json whose bits are `w`: the 32 bits of the command word,
then the 64 bits of DATA (all 0 where the table gives them none). -/
def decodeTableWord (_nbits w : Nat) : Option Instr :=
  match decode (BitVec.ofNat 32 w) (BitVec.ofNat 64 (w / 2 ^ 32)) with
  | .ok i => some i
  | .error _ => none

end Sys2Proof
end

