-- ==== Sys2Proof/Machine/State.lean ====
section
/-! DEFINITION. The block's whole state (10_state.md), the host's side of the command port, the reasons a run can stop,
and the state after power-on reset (70_reset_and_hazards.md R270). -/

namespace Sys2Proof.Machine

/-- The frame buffer as (index, byte) pairs, indices strictly rising. An unlisted index holds no value, the `⊥` of
10_state.md R32 and R33 (log 3). -/
abbrev Memory := List Host.Cell

/-- What the host does to the block next. -/
inductive HostEvent where
  /-- One transaction: a command word and its DATA operand (30_encoding.md R80). -/
  | command (word : CommandWord) (data : Data)
  /-- The power-on reset event, which is outside the command set (70_reset_and_hazards.md R271). -/
  | powerOnReset
  deriving DecidableEq, Repr

/-- The state. The first ten fields are the record of 10_state.md; the last three are the host's side (log 4). -/
structure State where
  /-- `buf` (10_state.md R32). -/
  buf : Memory
  /-- `SIZE` (10_state.md R34). -/
  size : BitVec 9
  /-- `COMPLETE` (10_state.md R35). -/
  complete : Bool
  /-- `CONSUMED` (10_state.md R37). -/
  consumed : Bool
  /-- `CUR_BASE` (10_state.md R36). -/
  curBase : BitVec 9
  /-- `CUR_POS` (10_state.md R36). -/
  curPos : BitVec 9
  /-- `CUR_R` (10_state.md R36). -/
  curR : Bool
  /-- `CUR_W` (10_state.md R36). -/
  curW : Bool
  /-- `FAULT` (10_state.md R38). -/
  fault : Bool
  /-- `FAULT_CODE` (10_state.md R38). -/
  faultCode : BitVec 3
  /-- What the host has yet to present, first first (10_state.md R31 and R43; DESIGN CHOICE, log 4). -/
  hostEvents : List HostEvent
  /-- The position in the host's command list: it starts at 0 and each command advances it by one (10_state.md R31). -/
  position : Nat
  /-- The responses given so far, first first (70_reset_and_hazards.md R284; DESIGN CHOICE, log 4). -/
  responses : List Response
  deriving DecidableEq, Repr

/-- Why the model stops. The faults the spec gives the block, codes 1 to 4, are not here: the block records them and the
run goes on (60_exceptions.md R253 and R254). -/
inductive Fault where
  /-- `UnwrittenRead` (60_exceptions.md R252), raised by every command that reads a buffer byte holding no value.
  Safe: the hardware would go on with some value, and the model stops. -/
  | unwrittenRead
  /-- An access at an index `>= CAP`, which 20_memory.md R60 says does not exist. Raised by ADDB and PARSE only, in states
  that break `SIZE <= CAP` (10_state.md R40), which no run reaches (log 7). Safe: the model stops. -/
  | outsideBuffer
  deriving DecidableEq, Repr

/-- Why the model has no meaning for a command. -/
inductive Refusal where
  /-- Raised by an arm of `exec` whose command has no meaning yet; no arm does. Safe: the model stops. -/
  | notModelled (mnemonic : String)
  deriving DecidableEq, Repr

/-- The state after power-on reset (70_reset_and_hazards.md R270), with a host that has presented nothing. -/
def State.reset : State where
  buf := []
  size := 0
  complete := false
  consumed := false
  curBase := 0
  curPos := 0
  curR := false
  curW := false
  fault := false
  faultCode := 0
  hostEvents := []
  position := 0
  responses := []

end Sys2Proof.Machine
end

