-- ==== Sys2Proof/Machine/Ops.lean ====
section
/-! DEFINITION. The named operations over the frame buffer and the registers; ending a command with a response; taking a
fault; power-on reset. -/

namespace Sys2Proof.Machine

/-- What a command ends in. -/
abbrev Result := Host.Outcome State Fault Refusal

/-! ### The frame buffer -/

/-- The value the byte at index `a` holds, or `none` where it holds no value (00_scope.md R17). -/
def byteAt : Memory → Nat → Option Byte
  | [], _ => none
  | (k, v) :: rest, a => if k = a then some v else byteAt rest a

/-- Put a byte into the list at its place, keeping indices strictly rising. -/
def insertByte : Memory → Nat → Byte → Memory
  | [], a, b => [(a, b)]
  | (k, v) :: rest, a, b =>
    if a < k then (a, b) :: (k, v) :: rest
    else if a = k then (a, b) :: rest
    else (k, v) :: insertByte rest a b

/-- `buf[a] <- b` (00_scope.md R17). There is no byte at an index `>= CAP` (20_memory.md R60): every caller has checked its
range, and a store there would change nothing (log 7). -/
def storeByte (m : Memory) (a : Nat) (b : Byte) : Memory :=
  if a < Config.cap then insertByte m a b else m

/-- `buf[a + k] <- bs[k]` for every `k` (`MemWrite`, 00_scope.md R17). -/
def storeBytes : Memory → Nat → List Byte → Memory
  | m, _, [] => m
  | m, a, b :: bs => storeBytes (storeByte m a b) (a + 1) bs

/-- `buf[i] <- ⊥` for every `i` of `a .. a+n-1` (00_scope.md R17). -/
def eraseBytes (m : Memory) (a n : Nat) : Memory :=
  m.filter fun c => decide (c.1 < a ∨ a + n ≤ c.1)

/-- Read one byte: its value, `UnwrittenRead` where it holds none (60_exceptions.md R252), and `outsideBuffer` at an index
that does not exist (20_memory.md R60). -/
def loadByte (m : Memory) (a : Nat) : Except Fault Byte :=
  if a < Config.cap then
    match byteAt m a with
    | some b => .ok b
    | none => .error .unwrittenRead
  else .error .outsideBuffer

/-- Read the `n` bytes `buf[a .. a+n-1]` in increasing index order. -/
def loadBytes (m : Memory) : (a n : Nat) → Except Fault (List Byte)
  | _, 0 => .ok []
  | a, n + 1 =>
    match loadByte m a with
    | .error f => .error f
    | .ok b =>
      match loadBytes m (a + 1) n with
      | .error f => .error f
      | .ok bs => .ok (b :: bs)

/-- The canonical form of the buffer: indices strictly rising, every index below `CAP`, so that equal buffers are equal
lists. Every listed byte differs from what an unlisted index reads as, since that is no value. -/
def Memory.wf (m : Memory) : Bool :=
  decide (m.Pairwise fun c d => c.1 < d.1) && m.all fun c => decide (c.1 < Config.cap)

/-! ### The registers -/

/-- Replace the frame buffer. -/
def State.setBuf (s : State) (m : Memory) : State := { s with buf := m }

/-- Write the framer registers `SIZE`, `COMPLETE` and `CONSUMED` (10_state.md R34, R35, R37). -/
def State.setFramer (s : State) (size : BitVec 9) (complete consumed : Bool) : State :=
  { s with size := size, complete := complete, consumed := consumed }

/-- Open the cursor: all four cursor fields at once, the position at 0 (40_primitive_codec.md R102). -/
def State.openCursor (s : State) (base : BitVec 9) (r w : Bool) : State :=
  { s with curBase := base, curPos := 0, curR := r, curW := w }

/-- `CUR_POS <- CUR_POS + n` (40_primitive_codec.md R101). -/
def State.advanceCursor (s : State) (n : Nat) : State :=
  { s with curPos := s.curPos + BitVec.ofNat 9 n }

/-- Record a fault: `FAULT <- 1` and `FAULT_CODE <- code` (10_state.md R38). -/
def State.setFault (s : State) (code : BitVec 3) : State :=
  { s with fault := true, faultCode := code }

/-- Give the host one response. -/
def State.answer (s : State) (r : Response) : State :=
  { s with responses := s.responses ++ [r] }

/-- The host presents a command: the position advances by one (10_state.md R31) and `rest` is what is left. -/
def State.takeCommand (s : State) (rest : List HostEvent) : State :=
  { s with hostEvents := rest, position := s.position + 1 }

/-! ### How a command ends -/

/-- `respond v` (00_scope.md R18). -/
def respond (v : Data) (s : State) : Result := .next (s.answer (some v))

/-- `respond none` (00_scope.md R18). -/
def respondNone (s : State) : Result := .next (s.answer none)

/-- The faults of the block (60_exceptions.md R251). -/
inductive FaultName where
  /-- Code 1: a command word that matches no row. -/
  | illegalCommand
  /-- Code 2: a range reaches past the buffer. -/
  | capacityViolation
  /-- Code 3: COBSENC with `LEN < 2`. -/
  | badLength
  /-- Code 4: PARSE with `CONSUMED = 1`. -/
  | doubleParse
  deriving DecidableEq, Repr

/-- The value of `FAULT_CODE` (60_exceptions.md R251). -/
def faultCodeOf : FaultName → BitVec 3
  | .illegalCommand => 1
  | .capacityViolation => 2
  | .badLength => 3
  | .doubleParse => 4

/-- `raise Fault(code)`: TAKING A FAULT. "The faulting command changes no state other than `FAULT <- 1` and
`FAULT_CODE <- code`"; the response is none, no state is saved, no vector is taken and no handler runs
(60_exceptions.md R253). There is no return from a fault: the way out is power-on reset (R256). -/
def raiseFault (f : FaultName) (s : State) : Result := respondNone (s.setFault (faultCodeOf f))

/-- Power-on reset: every field of the block at its value of 70_reset_and_hazards.md R270, whatever the state was (R271).
The host's side is not the block's: what the host has yet to present becomes `rest`, and its position and the responses it
has been given stay (log 6). -/
def State.powerOnReset (s : State) (rest : List HostEvent) : State :=
  { State.reset with hostEvents := rest, position := s.position, responses := s.responses }

/-- Go on with what was read, or end in the fault the read raised. -/
def readThen {α : Type} (r : Except Fault α) (k : α → Result) : Result :=
  match r with
  | .ok v => k v
  | .error f => .fault f

end Sys2Proof.Machine
end

