-- ==== Sys2Proof/Machine/Operands.lean ====
section
/-! DEFINITION. The operand forms: a buffer range with its range check, the cursor's place, little-endian values in the
buffer, and the extensions to 64 bits. -/

namespace Sys2Proof.Machine

/-- The range check of 20_memory.md R62: `a + n <= CAP` on integers, also for `n = 0`, before any byte is read or written;
otherwise `CAPACITY_VIOLATION`. -/
def checkRange (a n : Nat) (s : State) (k : Result) : Result :=
  if a + n ≤ Config.cap then k else raiseFault .capacityViolation s

/-- Where the next cursor access touches the buffer: `CUR_BASE + CUR_POS` (10_state.md R36). -/
def cursorAddr (s : State) : Nat := s.curBase.toNat + s.curPos.toNat

/-- The bytes of `v` in the buffer, `w` of them: byte `k` is `v[8k+7:8k]` (00_scope.md R17, 20_memory.md R61). -/
def leBytes : (w v : Nat) → List Byte
  | 0, _ => []
  | w + 1, v => BitVec.ofNat 8 v :: leBytes w (v / 256)

/-- The number that bytes hold, lowest index first: the sum of `buf[a+k] * 256^k` (00_scope.md R17). -/
def leValue : List Byte → Nat
  | [] => 0
  | b :: bs => b.toNat + 256 * leValue bs

/-- `MemRead(a, n)` (00_scope.md R17). -/
def loadValue (m : Memory) (a n : Nat) : Except Fault Nat :=
  match loadBytes m a n with
  | .ok bs => .ok (leValue bs)
  | .error f => .error f

/-- `MemWrite(a, n, v)` (00_scope.md R17). -/
def storeValue (m : Memory) (a n v : Nat) : Memory := storeBytes m a (leBytes n v)

/-- `zext_64` (00_scope.md R16). -/
def zext64 (v : Nat) : Data := BitVec.ofNat 64 v

/-- `sext_64` of a value of `w` bytes: bit `8w - 1` is the sign, two's complement (00_scope.md R16,
40_primitive_codec.md R120). -/
def sext64 (w v : Nat) : Data := (BitVec.ofNat (8 * w) v).signExtend 64

end Sys2Proof.Machine
end

