-- ==== Sys2Proof/Machine/BufferPort.lean ====
section
/-! DEFINITION. The buffer port: BUFRD and BUFWR (45_buffer_port.md). -/

namespace Sys2Proof.Machine

/-- BUFRD (45_buffer_port.md R240). -/
def execBufrd (start : Nat) (s : State) : Result :=
  checkRange start 1 s <|
    readThen (loadByte s.buf start) fun b => respond (zext64 b.toNat) s

/-- BUFWR (45_buffer_port.md R241). -/
def execBufwr (start : Nat) (b : Byte) (s : State) : Result :=
  checkRange start 1 s <| respondNone (s.setBuf (storeByte s.buf start b))

end Sys2Proof.Machine
end

