-- ==== Sys2Proof/Machine/Cursor.lean ====
section
/-! DEFINITION. The primitive codec: the cursor and its reads and writes (40_primitive_codec.md). -/

namespace Sys2Proof.Machine

/-- CUROPEN (40_primitive_codec.md R102): legal for `START <= CAP`. -/
def execCuropen (start : Nat) (r w : Bool) (s : State) : Result :=
  checkRange start 0 s <| respondNone (s.openCursor (BitVec.ofNat 9 start) r w)

/-- CURPOS (40_primitive_codec.md R103). -/
def execCurpos (s : State) : Result := respond (zext64 s.curPos.toNat) s

/-- `CursorWrite(w, v)` (40_primitive_codec.md R101). -/
def cursorWrite (w v : Nat) (s : State) : Result :=
  if !s.curW then respondNone s
  else checkRange (cursorAddr s) w s <|
    respondNone ((s.setBuf (storeValue s.buf (cursorAddr s) w v)).advanceCursor w)

/-- `CursorRead(w)`, its value widened by `ext` for the response (40_primitive_codec.md R101). -/
def cursorRead (w : Nat) (ext : Nat → Data) (s : State) : Result :=
  if !s.curR then respondNone s
  else checkRange (cursorAddr s) w s <|
    readThen (loadValue s.buf (cursorAddr s) w) fun v => respond (ext v) (s.advanceCursor w)

/-- PUT8 (40_primitive_codec.md R110). -/
def execPut8 (v : BitVec 8) (s : State) : Result := cursorWrite 1 v.toNat s

/-- PUT16 (40_primitive_codec.md R111). -/
def execPut16 (v : BitVec 16) (s : State) : Result := cursorWrite 2 v.toNat s

/-- PUT32 (40_primitive_codec.md R112). -/
def execPut32 (v : BitVec 32) (s : State) : Result := cursorWrite 4 v.toNat s

/-- PUT64 (40_primitive_codec.md R113). -/
def execPut64 (v : BitVec 64) (s : State) : Result := cursorWrite 8 v.toNat s

/-- GETU8 (40_primitive_codec.md R121). -/
def execGetu8 (s : State) : Result := cursorRead 1 zext64 s

/-- GETU16 (40_primitive_codec.md R122). -/
def execGetu16 (s : State) : Result := cursorRead 2 zext64 s

/-- GETU32 (40_primitive_codec.md R123). -/
def execGetu32 (s : State) : Result := cursorRead 4 zext64 s

/-- GET64 (40_primitive_codec.md R124). -/
def execGet64 (s : State) : Result := cursorRead 8 zext64 s

/-- GETS8 (40_primitive_codec.md R125). -/
def execGets8 (s : State) : Result := cursorRead 1 (sext64 1) s

/-- GETS16 (40_primitive_codec.md R126). -/
def execGets16 (s : State) : Result := cursorRead 2 (sext64 2) s

/-- GETS32 (40_primitive_codec.md R127). -/
def execGets32 (s : State) : Result := cursorRead 4 (sext64 4) s

end Sys2Proof.Machine
end

