-- ==== Sys2Proof/Machine/Checksum.lean ====
section
/-! DEFINITION. The checksum unit: the functions `crc32` and `crc16` and the commands CRC32 and CRC16 (41_checksum.md). -/

namespace Sys2Proof.Machine

/-- One step of a reflected CRC: "if c[0] = 1: c <- (c >> 1) ^ poly; else: c <- c >> 1" (41_checksum.md R142, R145). -/
def crcShift {n : Nat} (poly c : BitVec n) : BitVec n :=
  if c.getLsbD 0 then (c >>> 1) ^^^ poly else c >>> 1

/-- `k` steps; a byte takes 8 ("repeat 8 times", 41_checksum.md R142, R145). -/
def crcShifts {n : Nat} (poly : BitVec n) : Nat → BitVec n → BitVec n
  | 0, c => c
  | k + 1, c => crcShifts poly k (crcShift poly c)

/-- Take one byte into the CRC: `c ^ zext(byte)`, then 8 steps (41_checksum.md R142, R145). -/
def crcByte {n : Nat} (poly c : BitVec n) (b : Byte) : BitVec n :=
  crcShifts poly 8 (c ^^^ b.setWidth n)

/-- Take bytes in increasing index order (41_checksum.md R142). -/
def crcBytes {n : Nat} (poly c : BitVec n) (bs : List Byte) : BitVec n :=
  bs.foldl (crcByte poly) c

/-- A 32-bit CRC by its parameter set (41_checksum.md R141): the input bits of each byte are taken least significant first
when reflected, else most significant first; the register is kept reflected. -/
def crc32With (p : Config.Crc32Params) (bs : List Byte) : BitVec 32 :=
  let fed := if p.reflectIn then bs else bs.map BitVec.reverse
  let c := crcBytes p.polyReversed p.initial.reverse fed
  (if p.reflectOut then c else c.reverse) ^^^ p.finalXor

/-- `crc32` of the bytes of a range, at the default parameter set (41_checksum.md R141, R142). -/
def crc32 (bs : List Byte) : BitVec 32 := crc32With Config.crc32Params bs

/-- `crc16(seed, s, n)` over the bytes of a range: no final exclusive-or, no output inversion (41_checksum.md R145). -/
def crc16 (seed : BitVec 16) (bs : List Byte) : BitVec 16 := crcBytes Config.crc16Poly seed bs

/-- CRC32 (41_checksum.md R143). -/
def execCrc32 (start len : Nat) (s : State) : Result :=
  checkRange start len s <|
    readThen (loadBytes s.buf start len) fun bs => respond (zext64 (crc32 bs).toNat) s

/-- CRC16 (41_checksum.md R145). -/
def execCrc16 (start len : Nat) (seed : BitVec 16) (s : State) : Result :=
  checkRange start len s <|
    readThen (loadBytes s.buf start len) fun bs => respond (zext64 (crc16 seed bs).toNat) s

end Sys2Proof.Machine
end

