-- ==== Sys2Proof/Machine/Cobs.lean ====
section
/-! DEFINITION. The byte-stuffing codec: `cobs_encode`, `cobs_decode` and the commands COBSENC and COBSDEC (42_cobs.md).
Both functions are written on the list of a range's bytes; positions are relative to the range's start, as in the spec. -/

namespace Sys2Proof.Machine

/-- The loop of `cobs_encode` (42_cobs.md R161) over the `n` positions `i .. i+n-1`: at a zero byte, write the distance at
the previous replacement point `last` and make `i` the new one. Gives the range and the last replacement point. -/
def cobsScan : (n i last : Nat) → List Byte → List Byte × Nat
  | 0, _, last, r => (r, last)
  | n + 1, i, last, r =>
    if r.getD i 0 = 0 then cobsScan n (i + 1) i (r.set last (BitVec.ofNat 8 (i - last)))
    else cobsScan n (i + 1) last r

/-- `cobs_encode` (42_cobs.md R161) on a range of `L = interior.length + 2` bytes with the given interior. "The input values
of `buf[s]` and `buf[s+L-1]` are never read and are overwritten": the model starts them at 0. -/
def cobsEncode (interior : List Byte) : List Byte :=
  let len := interior.length + 2
  let (r, last) := cobsScan interior.length 1 0 (0 :: interior ++ [0])
  (r.set last (BitVec.ofNat 8 (len - 1 - last))).set (len - 1) Config.delimiter

/-- The walk of `cobs_decode` (42_cobs.md R164) from position `i`, at most `k` more steps: follow the distance at `i`, restore
the zero it stood for (not at the leading slot), and stop at position `L-1`; `none` where an offset points past it. -/
def cobsWalk : (k i : Nat) → List Byte → Option (List Byte)
  | 0, _, _ => none
  | k + 1, i, r =>
    let j := i + (r.getD i 0).toNat
    if r.length - 1 < j then none
    else
      let r' := if 0 < i then r.set i 0 else r
      if j = r.length - 1 then some r' else cobsWalk k j r'

/-- `cobs_decode` (42_cobs.md R164) on the bytes of a range: the rewritten range on `OK` (its leading slot still to be
marked as holding no value), `none` on `FAIL`. The walk takes at most `L-1` steps (R167), so `L` is fuel enough. -/
def cobsDecode (r : List Byte) : Option (List Byte) :=
  if r.length < 2 then none
  else if r.getD (r.length - 1) 0 ≠ 0 then none
  else if (r.take (r.length - 1)).any (· == 0) then none
  else cobsWalk r.length 0 r

/-- `cobs_encode(start, len)` in the buffer, for `2 <= len`. The interior is read first: the loop of R161 never reads a byte
it has written (log 10). -/
def cobsEncodeAt (m : Memory) (start len : Nat) : Except Fault Memory :=
  match loadBytes m (start + 1) (len - 2) with
  | .error f => .error f
  | .ok interior => .ok (storeBytes m start (cobsEncode interior))

/-- `cobs_decode(start, len)` in the buffer: `true` for `OK`, with the buffer after it. On `OK` the leading slot holds no
value; on `FAIL` the whole range holds no value (42_cobs.md R164). -/
def cobsDecodeAt (m : Memory) (start len : Nat) : Except Fault (Bool × Memory) :=
  match loadBytes m start len with
  | .error f => .error f
  | .ok r =>
    match cobsDecode r with
    | some d => .ok (true, eraseBytes (storeBytes m start d) start 1)
    | none => .ok (false, eraseBytes m start len)

/-- COBSENC (42_cobs.md R162). -/
def execCobsenc (start len : Nat) (s : State) : Result :=
  checkRange start len s <|
    if len < 2 then raiseFault .badLength s
    else readThen (cobsEncodeAt s.buf start len) fun m => respondNone (s.setBuf m)

/-- COBSDEC (42_cobs.md R165). -/
def execCobsdec (start len : Nat) (s : State) : Result :=
  checkRange start len s <|
    readThen (cobsDecodeAt s.buf start len) fun d =>
      respond (if d.1 then zext64 (start + 1) else 0) (s.setBuf d.2)

end Sys2Proof.Machine
end

