-- ==== Sys2Proof/Machine/Flags.lean ====
section
/-! DEFINITION. The flags (10_state.md R42), the derived `FULL`, the framer states (R39) and the status word (R41). -/

namespace Sys2Proof.Machine

/-- `FULL`: "1 exactly when `SIZE = CAP` (derived, not stored)" (10_state.md R41). -/
def State.full (s : State) : Bool := decide (s.size.toNat = Config.cap)

/-- The framer states of the source (10_state.md R39). -/
inductive FramerState where
  | empty
  | receiving
  | receivingFull
  | completeUnparsed
  | completeParsed
  deriving DecidableEq, Repr

/-- The framer state as a function of the registers (10_state.md R39). -/
def State.framerState (s : State) : FramerState :=
  if s.complete then (if s.consumed then .completeParsed else .completeUnparsed)
  else if s.size = 0 then .empty
  else if s.full then .receivingFull
  else .receiving

/-- `COMPLETE` after ADDB accepts `b`: set by the delimiter, else unchanged (44_packet.md R201). -/
def completeAfter (s : State) (b : Byte) : Bool := s.complete || b == Config.delimiter

/-- One bit of the status word. -/
def bit (b : Bool) (i : Nat) : Nat := b.toNat * 2 ^ i

/-- The status word (10_state.md R41): SIZE [8:0], COMPLETE [9], CONSUMED [10], FULL [11], FAULT [12], FAULT_CODE [15:13],
CUR_BASE [24:16], CUR_POS [33:25], CUR_R [34], CUR_W [35], and [63:36] reserved, 0. -/
def statusWord (s : State) : Data :=
  BitVec.ofNat 64 (s.size.toNat + bit s.complete 9 + bit s.consumed 10 + bit s.full 11 + bit s.fault 12
    + s.faultCode.toNat * 2 ^ 13 + s.curBase.toNat * 2 ^ 16 + s.curPos.toNat * 2 ^ 25 + bit s.curR 34 + bit s.curW 35)

end Sys2Proof.Machine
end

