-- ==== Sys2Proof/Machine/Framer.lean ====
section
/-! DEFINITION. The packet framer: ADDB, RESET, COMPLETE, STATUS, PARSE and PACKETIZE (44_packet.md). -/

namespace Sys2Proof.Machine

/-- ADDB (44_packet.md R201 and R202). `outsideBuffer` only where `SIZE > CAP`, which no run reaches (log 7). -/
def execAddb (b : Byte) (s : State) : Result :=
  if s.complete || s.full then respond 0 s
  else if s.size.toNat < Config.cap then
    respond 1 ((s.setBuf (storeByte s.buf s.size.toNat b)).setFramer (s.size + 1) (completeAfter s b) s.consumed)
  else .fault .outsideBuffer

/-- RESET (44_packet.md R204). -/
def execReset (s : State) : Result := respondNone (s.setFramer 0 false false)

/-- COMPLETE (44_packet.md R205). -/
def execComplete (s : State) : Result := respond (zext64 s.complete.toNat) s

/-- STATUS (44_packet.md R206). -/
def execStatus (s : State) : Result := respond (statusWord s) s

/-- PARSE after a successful decode of a frame with a body of `n` bytes: steps (3) to (5) of 44_packet.md R210, then the
header's id as it stands (R218). -/
def parseBody (n : Nat) (s : State) : Result :=
  readThen (loadBytes s.buf 1 n) fun body =>
  readThen (loadValue s.buf (1 + n) 4) fun stored =>
  if (crc32 body).toNat ≠ stored then respond 0 s
  else if n < Config.hdr then respond 0 s
  else readThen (loadByte s.buf 1) fun sz =>
    if sz.toNat + Config.hdr ≠ n then respond 0 s
    else readThen (loadByte s.buf 2) fun id => respond (zext64 id.toNat) s

/-- PARSE of a complete frame that has not been parsed, with `CONSUMED` set: steps (1) and (2) of 44_packet.md R210. -/
def parseFrame (s : State) : Result :=
  if s.size.toNat < Config.minFrame then respond 0 s
  else readThen (cobsDecodeAt s.buf 0 s.size.toNat) fun d =>
    if d.1 then parseBody (s.size.toNat - Config.totalOvh) (s.setBuf d.2)
    else respond 0 (s.setBuf d.2)

/-- PARSE (44_packet.md R210, R215, R216). -/
def execParse (s : State) : Result :=
  if !s.complete then respond 0 s
  else if s.consumed then raiseFault .doubleParse s
  else parseFrame (s.setFramer s.size s.complete true)

/-- The frame length of a header `size`: body `size + HDR`, plus `TOTAL_OVH` (44_packet.md R220). -/
def frameLength (sz : Nat) : Nat := sz + Config.hdr + Config.totalOvh

/-- PACKETIZE (44_packet.md R220 to R222). -/
def execPacketize (s : State) : Result :=
  readThen (loadByte s.buf 1) fun sz =>
  let n := sz.toNat + Config.hdr
  let len := frameLength sz.toNat
  checkRange 0 len s <|
    readThen (loadBytes s.buf 1 n) fun body =>
    readThen (cobsEncodeAt (storeValue s.buf (1 + n) 4 (crc32 body).toNat) 0 len) fun m =>
    respond (zext64 len) ((s.setBuf m).setFramer (BitVec.ofNat 9 len) true false)

end Sys2Proof.Machine
end

