-- ==== Sys2Proof/Machine/Dispatch.lean ====
section
/-! DEFINITION. One arm per command: the meaning of each (30_encoding.md R83). -/

namespace Sys2Proof.Machine

def exec (i : Instr) (s : State) : Host.Outcome State Fault Refusal :=
  match i with
  | .reset => Sys2Proof.Machine.execReset s
  | .addb b => Sys2Proof.Machine.execAddb b s
  | .complete => Sys2Proof.Machine.execComplete s
  | .status => Sys2Proof.Machine.execStatus s
  | .parse => Sys2Proof.Machine.execParse s
  | .packetize => Sys2Proof.Machine.execPacketize s
  | .bufrd start => Sys2Proof.Machine.execBufrd start s
  | .bufwr start b => Sys2Proof.Machine.execBufwr start b s
  | .cobsenc start len => Sys2Proof.Machine.execCobsenc start len s
  | .cobsdec start len => Sys2Proof.Machine.execCobsdec start len s
  | .crc32 start len => Sys2Proof.Machine.execCrc32 start len s
  | .crc16 start len seed => Sys2Proof.Machine.execCrc16 start len seed s
  | .curopen start r w => Sys2Proof.Machine.execCuropen start r w s
  | .curpos => Sys2Proof.Machine.execCurpos s
  | .put8 v => Sys2Proof.Machine.execPut8 v s
  | .put16 v => Sys2Proof.Machine.execPut16 v s
  | .put32 v => Sys2Proof.Machine.execPut32 v s
  | .put64 v => Sys2Proof.Machine.execPut64 v s
  | .getu8 => Sys2Proof.Machine.execGetu8 s
  | .getu16 => Sys2Proof.Machine.execGetu16 s
  | .getu32 => Sys2Proof.Machine.execGetu32 s
  | .get64 => Sys2Proof.Machine.execGet64 s
  | .gets8 => Sys2Proof.Machine.execGets8 s
  | .gets16 => Sys2Proof.Machine.execGets16 s
  | .gets32 => Sys2Proof.Machine.execGets32 s

end Sys2Proof.Machine
end

