-- ==== Sys2Proof/Machine/Issue.lean ====
section
/-! DEFINITION. What the block does with one host event: the fault gate, decoding, executing (30_encoding.md R84), power-on
reset (70_reset_and_hazards.md R271), and idling between commands (60_exceptions.md R264). -/

namespace Sys2Proof.Machine

/-- The one word that executes while `FAULT = 1`: STATUS (30_encoding.md R84). -/
def statusCommandWord : CommandWord := 0x00000004

/-- Run one transaction (30_encoding.md R84). While `FAULT = 1` only the exact STATUS word executes; every other word gets
the response none and changes nothing (60_exceptions.md R254). A word that matches no row raises `ILLEGAL_COMMAND`. -/
def issue (w : CommandWord) (d : Data) (s : State) : Result :=
  if s.fault then
    if w = statusCommandWord then exec .status s else respondNone s
  else
    match decode w d with
    | .ok i => exec i s
    | .error _ => raiseFault .illegalCommand s

/-- Take the host's next event. With none pending the block is idle and keeps its state (60_exceptions.md R264; log 5). -/
def serveHost (s : State) : Result :=
  match s.hostEvents with
  | [] => .next s
  | .command w d :: rest => issue w d (s.takeCommand rest)
  | .powerOnReset :: rest => .next (s.powerOnReset rest)

/-- `s` with a transaction put in front of what the host has yet to present. -/
def State.present (s : State) (w : CommandWord) (d : Data) : State :=
  { s with hostEvents := .command w d :: s.hostEvents }

end Sys2Proof.Machine
end

