-- ==== Sys2Proof/Machine/Step.lean ====
section
/-! DEFINITION. One step of the machine: one host event. -/

namespace Sys2Proof.Machine

/-- One step: the block takes the host's next event and executes it to completion (20_memory.md R66). -/
def step (s : State) : Host.Outcome State Fault Refusal := serveHost s

/-- `s` with the instruction whose bits are `w` (the 32 bits of the command word, then DATA) presented as the host's next
transaction. The block fetches nothing (10_state.md R31): the host's list is where `step` takes its next command (log 4). -/
def State.withFetchWord (s : State) (_nbits w : Nat) : State :=
  s.present (BitVec.ofNat 32 w) (BitVec.ofNat 64 (w / 2 ^ 32))

end Sys2Proof.Machine
end

