-- ==== Sys2Proof/Machine/Assembler.lean ====
section
/-! DEFINITION. The spec's assembler: its lines, its pseudo-instructions and the transactions they stand for (30_encoding.md
R90 and R91). Host tooling: no step of the block uses it. The text syntax itself is not modelled (log 12). -/

namespace Sys2Proof.Machine

/-- The 13 commands written with no operand (30_encoding.md R90). -/
inductive NoOperand where
  | reset | complete | status | parse | packetize | curpos
  | getu8 | getu16 | getu32 | get64 | gets8 | gets16 | gets32
  deriving DecidableEq, Repr

/-- The OP of a command written with no operand (30_encoding.md R83). -/
def noOperandOp : NoOperand → Nat
  | .reset => 0x01
  | .complete => 0x03
  | .status => 0x04
  | .parse => 0x05
  | .packetize => 0x06
  | .curpos => 0x21
  | .getu8 => 0x30
  | .getu16 => 0x31
  | .getu32 => 0x32
  | .get64 => 0x33
  | .gets8 => 0x34
  | .gets16 => 0x35
  | .gets32 => 0x36

/-- The commands written `s, l` (30_encoding.md R90). -/
inductive RangeCommand where
  | cobsenc | cobsdec | crc32
  deriving DecidableEq, Repr

/-- The OP of a command written `s, l` (30_encoding.md R83). -/
def rangeOp : RangeCommand → Nat
  | .cobsenc => 0x10
  | .cobsdec => 0x11
  | .crc32 => 0x18

/-- The mode of `CUROPEN s, m` (30_encoding.md R90). -/
inductive OpenMode where
  | none | r | w | rw
  deriving DecidableEq, Repr

/-- MODE of `CUROPEN s, m` (30_encoding.md R90). -/
def openModeBits : OpenMode → Nat
  | .none => 0
  | .r => 1
  | .w => 2
  | .rw => 3

/-- The width of a PUT in the assembler. -/
inductive PutWidth where
  | w8 | w16 | w32 | w64
  deriving DecidableEq, Repr

/-- Bytes of a PUT (30_encoding.md R90). -/
def putBytes : PutWidth → Nat
  | .w8 => 1
  | .w16 => 2
  | .w32 => 4
  | .w64 => 8

/-- The OP of a PUT (30_encoding.md R83). -/
def putOp : PutWidth → Nat
  | .w8 => 0x28
  | .w16 => 0x29
  | .w32 => 0x2A
  | .w64 => 0x2B

/-- One line of assembly: a command (30_encoding.md R90) or a pseudo-instruction (R91). Numbers are as the programmer writes
them. A floating-point operand is given as its bit pattern, which the assembler computes (log 12). -/
inductive AsmLine where
  | plain (c : NoOperand)
  | addb (b : Int)
  | bufrd (i : Int)
  | bufwr (i b : Int)
  | range (c : RangeCommand) (s l : Int)
  | crc16 (s l seed : Int)
  | curopen (s : Int) (m : OpenMode)
  | put (width : PutWidth) (v : Int)
  /-- `PUTI8 .. PUTI64`. -/
  | puti (width : PutWidth) (v : Int)
  | putf32 (bits : BitVec 32)
  | putf64 (bits : BitVec 64)
  | getf32
  | getf64
  | getu64
  | gets64
  /-- `PUTARR8 .. PUTARR64`. -/
  | putarr (width : PutWidth) (vs : List Int)
  | puthdr (size id : Int)
  | curclose
  | feed (bs : List Int)
  deriving DecidableEq, Repr

/-- `lo <= v <= hi`, else the assembler refuses (30_encoding.md R90). -/
def operand (lo hi v : Int) : Option Nat := if lo ≤ v ∧ v ≤ hi then some v.toNat else none

/-- An index, start or length: `0..511` (30_encoding.md R90). -/
def fieldOperand (v : Int) : Option Nat := operand 0 511 v

/-- One ADDB (30_encoding.md R90). -/
def asmAddb (b : Int) : Option HostEvent :=
  (operand 0 255 b).map fun b => .command (wordOf 0x02 0 0 0) (BitVec.ofNat 64 b)

/-- One PUT: `v` in `-2^(8w-1) .. 2^(8w)-1`, DATA `v mod 2^64` (30_encoding.md R90). -/
def asmPut (width : PutWidth) (v : Int) : Option HostEvent :=
  if -2 ^ (8 * putBytes width - 1) ≤ v ∧ v ≤ 2 ^ (8 * putBytes width) - 1 then
    some (.command (wordOf (putOp width) 0 0 0) (BitVec.ofInt 64 v))
  else none

/-- One command with no operand. -/
def asmPlain (c : NoOperand) : HostEvent := .command (wordOf (noOperandOp c) 0 0 0) 0

/-- One CUROPEN (30_encoding.md R90). -/
def asmCuropen (s : Int) (m : OpenMode) : Option HostEvent :=
  (fieldOperand s).map fun s => .command (wordOf 0x20 s 0 (openModeBits m)) 0

/-- The transactions of a line; `none` where the assembler refuses it (30_encoding.md R90 and R91). -/
def assemble : AsmLine → Option (List HostEvent)
  | .plain c => some [asmPlain c]
  | .addb b => (asmAddb b).map ([·])
  | .bufrd i => (fieldOperand i).map fun i => [.command (wordOf 0x08 i 0 0) 0]
  | .bufwr i b => do
    let i ← fieldOperand i
    let b ← operand 0 255 b
    some [.command (wordOf 0x09 i 0 0) (BitVec.ofNat 64 b)]
  | .range c s l => do
    let s ← fieldOperand s
    let l ← fieldOperand l
    some [.command (wordOf (rangeOp c) s l 0) 0]
  | .crc16 s l seed => do
    let s ← fieldOperand s
    let l ← fieldOperand l
    let seed ← operand 0 0xFFFF seed
    some [.command (wordOf 0x19 s l 0) (BitVec.ofNat 64 seed)]
  | .curopen s m => (asmCuropen s m).map ([·])
  | .put width v => (asmPut width v).map ([·])
  | .puti width v => (asmPut width v).map ([·])
  | .putf32 bits => (asmPut .w32 bits.toNat).map ([·])
  | .putf64 bits => (asmPut .w64 bits.toNat).map ([·])
  | .getf32 => some [asmPlain .getu32]
  | .getf64 => some [asmPlain .get64]
  | .getu64 => some [asmPlain .get64]
  | .gets64 => some [asmPlain .get64]
  | .putarr width vs => vs.mapM (asmPut width)
  | .puthdr size id => [size, id].mapM (asmPut .w8)
  | .curclose => (asmCuropen 0 .none).map ([·])
  | .feed bs => bs.mapM asmAddb

end Sys2Proof.Machine
end

