-- ==== Sys2Proof/Machine/Channels.lean ====
section
/-! DEFINITION. Several channels: one independent block each (00_scope.md R11, 60_exceptions.md R262). -/

namespace Sys2Proof.Machine

/-- Block `k` of several takes one step. "The blocks have no identifiers, start independently at their own POR, and send
each other nothing" (60_exceptions.md R262); the list's position is the model's name for a block. `none` where there is no
such block or its step does not answer a next state. -/
def stepChannel (k : Nat) (blocks : List State) : Option (List State) :=
  match blocks[k]? with
  | none => none
  | some s =>
    match step s with
    | .next t => some (blocks.set k t)
    | .fault _ => none
    | .refused _ => none

end Sys2Proof.Machine
end

