-- ==== Sys2Proof/Safety.lean ====
section
/-! DEFINITION. What counts as a safe run, and the words the statements use: the invariant of every reachable state, and
what a command keeps. -/

namespace Sys2Proof.Machine

/-- What holds in every state a run reaches: the invariants of 10_state.md R40, the legal values of its table, and the
canonical form of the buffer. -/
structure Inv (s : State) : Prop where
  /-- The buffer is in canonical form, with no index past `CAP`. -/
  buf_wf : Memory.wf s.buf = true
  /-- `SIZE <= CAP` (10_state.md R40). -/
  size_le : s.size.toNat ≤ Config.cap
  /-- `CONSUMED = 1` implies `COMPLETE = 1` (10_state.md R40). -/
  consumed_complete : s.consumed = true → s.complete = true
  /-- `COMPLETE = 1` implies `SIZE >= 1` (10_state.md R40). -/
  complete_size : s.complete = true → 1 ≤ s.size.toNat
  /-- The cursor has not passed the buffer: `CUR_BASE + CUR_POS <= CAP`, so both are legal values (10_state.md, table). -/
  cursor_le : s.curBase.toNat + s.curPos.toNat ≤ Config.cap
  /-- Codes 5..7 are never written (10_state.md R38). -/
  code_le : s.faultCode.toNat ≤ 4
  /-- A fault is recorded exactly when its code is (10_state.md R38). -/
  fault_iff : s.fault = true ↔ s.faultCode ≠ 0

/-- `SIZE`, `COMPLETE` and `CONSUMED` as before. -/
def KeepsFramer (s t : State) : Prop := t.size = s.size ∧ t.complete = s.complete ∧ t.consumed = s.consumed

/-- The four cursor fields as before. -/
def KeepsCursor (s t : State) : Prop :=
  t.curBase = s.curBase ∧ t.curPos = s.curPos ∧ t.curR = s.curR ∧ t.curW = s.curW

/-- `CUR_BASE`, `CUR_R` and `CUR_W` as before. -/
def KeepsCursorButPos (s t : State) : Prop := t.curBase = s.curBase ∧ t.curR = s.curR ∧ t.curW = s.curW

/-- `FAULT` and `FAULT_CODE` as before. -/
def KeepsFault (s t : State) : Prop := t.fault = s.fault ∧ t.faultCode = s.faultCode

/-- `FAULT` and `FAULT_CODE` as before, or the fault `f` recorded and the response none. -/
def KeepsFaultOr (f : FaultName) (s t : State) : Prop :=
  KeepsFault s t ∨ (t.fault = true ∧ t.faultCode = faultCodeOf f ∧ t.responses = s.responses ++ [none])

/-- What the host has yet to present and its position, as before. -/
def KeepsHost (s t : State) : Prop := t.hostEvents = s.hostEvents ∧ t.position = s.position

/-- Every byte outside `buf[a .. a+n-1]` reads as before. -/
def KeepsBytesOutside (a n : Nat) (s t : State) : Prop :=
  ∀ i, (i < a ∨ a + n ≤ i) → byteAt t.buf i = byteAt s.buf i

/-- Every byte of the buffer reads as before. -/
def KeepsBytes (s t : State) : Prop := ∀ i, byteAt t.buf i = byteAt s.buf i

/-- Exactly one response was given, `r`. -/
def Answers (r : Response) (s t : State) : Prop := t.responses = s.responses ++ [r]

/-- The bytes `bs` stand in the buffer from index `a`. -/
abbrev Holds (m : Memory) (a : Nat) (bs : List Byte) : Prop := ∀ k, (h : k < bs.length) → byteAt m (a + k) = some bs[k]

/-- Some byte of `buf[a .. a+n-1]` holds no value. -/
abbrev HasUnwritten (m : Memory) (a n : Nat) : Prop := ∃ k, k < n ∧ byteAt m (a + k) = none

/-- `s` with one more response and nothing else changed. -/
def Answered (r : Response) (s : State) : State := { s with responses := s.responses ++ [r] }

/-- `s` with the fault `f` recorded, the response none, and nothing else changed (60_exceptions.md R253). -/
def FaultTaken (f : FaultName) (s : State) : State :=
  { s with fault := true, faultCode := faultCodeOf f, responses := s.responses ++ [none] }

/-- Feed received bytes to the framer, one ADDB each, in order (44_packet.md R200). -/
def feed : List Byte → State → Result
  | [], s => .next s
  | b :: bs, s =>
    match exec (.addb b) s with
    | .next t => feed bs t
    | .fault f => .fault f
    | .refused r => .refused r

/-- The positions reached from 0 by adding, at each, its byte's value (42_cobs.md R163 (b)). -/
inductive JumpsTo (r : List Byte) : Nat → Prop where
  | start : JumpsTo r 0
  | jump {i : Nat} {b : Byte} (h : JumpsTo r i) (hb : r[i]? = some b) : JumpsTo r (i + b.toNat)

/-- A PUT at index `a` through a fresh cursor, then a GET at `a` through a read-only cursor, each answering a next state, with
the GET's response `v` (40_primitive_codec.md R128). -/
def PutThenGet (put get : Instr) (a : Nat) (v : Data) (s : State) : Prop :=
  ∃ s1 s2 s3 s4, exec (.curopen a false true) s = .next s1 ∧ exec put s1 = .next s2 ∧
    exec (.curopen a true false) s2 = .next s3 ∧ exec get s3 = .next s4 ∧ Answers (some v) s3 s4

/-- What an enabled cursor write of `w` bytes inside the buffer does: byte `k` is `v[8k+7:8k]`, the position advances by `w`,
and nothing else changes (40_primitive_codec.md R101). -/
def PutStores (i : Instr) (w : Nat) (v : Data) (s : State) : Prop :=
  s.curW = true → cursorAddr s + w ≤ Config.cap →
    ∃ t, exec i s = .next t ∧ (∀ k, k < w → byteAt t.buf (cursorAddr s + k) = some (v.extractLsb' (8 * k) 8)) ∧
      KeepsBytesOutside (cursorAddr s) w s t ∧ t.curPos.toNat = s.curPos.toNat + w ∧ KeepsCursorButPos s t ∧
      Answers none s t ∧ KeepsFramer s t ∧ KeepsFault s t ∧ KeepsHost s t

/-- What an enabled cursor read of the bytes `bs` does: the response `v`, the position advanced, nothing else changed
(40_primitive_codec.md R101). -/
def GetResponds (i : Instr) (bs : List Byte) (v : Data) (s : State) : Prop :=
  s.curR = true → cursorAddr s + bs.length ≤ Config.cap → Holds s.buf (cursorAddr s) bs →
    ∃ t, exec i s = .next t ∧ Answers (some v) s t ∧ t.curPos.toNat = s.curPos.toNat + bs.length ∧
      KeepsCursorButPos s t ∧ KeepsBytes s t ∧ KeepsFramer s t ∧ KeepsFault s t ∧ KeepsHost s t

/-- The state the block executes a command in: the host's list without it, the position advanced by one. -/
def Presented (s : State) (rest : List HostEvent) : State :=
  { s with hostEvents := rest, position := s.position + 1 }

end Sys2Proof.Machine
end

