-- ==== Sys2Proof/Certificates/Slice0/Obligations.lean ====
section
/-! DEFINITION. The statements for the provers, from the numbered rules of spec/. -/

open Sys2Proof Sys2Proof.Machine

/-! ### Encoding and decoding -/

/-- Every well-formed command decodes from its own transaction (30_encoding.md R81 to R84). -/
def Obligations.EncodedCommandDecodesToItself : Prop :=
  ∀ i : Instr, i.wellFormed = true → decode (encode i).1 (encode i).2 = .ok i

/-- A legal word is the word its command encodes to: no bit of the word is dropped (30_encoding.md R83 to R86). -/
def Obligations.LegalWordIsItsCommandsEncoding : Prop :=
  ∀ (w : CommandWord) (d : Data) (i : Instr), decode w d = .ok i → i.wellFormed = true ∧ (encode i).1 = w

/-- The decoder accepts a word exactly when it matches a row by mask and match (30_encoding.md R84). -/
def Obligations.DecodesExactlyTheWordsThatMatchARow : Prop :=
  ∀ (w : CommandWord) (d : Data), (∃ i, decode w d = .ok i) ↔ ∃ r ∈ opcodeTable, w &&& r.mask = r.matchWord

/-- "No two rows match the same word" (30_encoding.md R84). -/
def Obligations.NoTwoRowsMatchTheSameWord : Prop :=
  ∀ r ∈ opcodeTable, ∀ r' ∈ opcodeTable, ∀ w : CommandWord, r.matches w = true → r'.matches w = true → r = r'

/-- DATA bits above those a command uses change nothing (30_encoding.md R82). -/
def Obligations.IgnoredDataBitsChangeNothing : Prop :=
  ∀ (w : CommandWord) (d d' : Data),
    (∀ e, decode w d = .error e → decode w d' = .error e) ∧
    (∀ i, decode w d = .ok i → d'.toNat % 2 ^ dataBitsUsed i = d.toNat % 2 ^ dataBitsUsed i → decode w d' = .ok i)

/-- Words of the spec's listings and tables decode to the commands they stand for (30_encoding.md R83, 95_test_vectors.md). -/
def Obligations.ListedWordsDecode : Prop :=
  decode 0x00000002 0x74 = .ok (.addb 0x74) ∧ decode 0x00000108 0 = .ok (.bufrd 1) ∧
  decode 0x000A0010 0 = .ok (.cobsenc 0 5) ∧ decode 0x000A0419 0x8B13 = .ok (.crc16 4 5 0x8B13) ∧
  decode 0x08000A20 0 = .ok (.curopen 10 false true) ∧ decode 0x00000029 0xE74 = .ok (.put16 0xE74) ∧
  decode 0x00000036 0 = .ok .gets32

/-- An illegal word raises `ILLEGAL_COMMAND` with no other effect: an OP outside the table, a 1 in RSV, or a 1 in a field the
command does not use (30_encoding.md R85). -/
def Obligations.IllegalWordRaisesIllegalCommand : Prop :=
  ∀ (s : State) (w : CommandWord) (d : Data) (rest : List HostEvent),
    s.fault = false → s.hostEvents = .command w d :: rest →
    ((opOf w = 0x00 ∨ opOf w = 0x07 ∨ (0x0A ≤ opOf w ∧ opOf w ≤ 0x0F) ∨ (0x12 ≤ opOf w ∧ opOf w ≤ 0x17) ∨
        (0x1A ≤ opOf w ∧ opOf w ≤ 0x1F) ∨ (0x22 ≤ opOf w ∧ opOf w ≤ 0x27) ∨ (0x2C ≤ opOf w ∧ opOf w ≤ 0x2F) ∨
        (0x37 ≤ opOf w ∧ opOf w ≤ 0xFF)) ∨
      rsvOf w ≠ 0 ∨
      (∃ r ∈ opcodeTable, r.op = opOf w ∧ unusedFieldsZero r.layout w = false)) →
    step s = .next (FaultTaken .illegalCommand (Presented s rest))

/-! ### Steps -/

/-- A step runs the decoded command, in the state where the host's list has lost it and the position has advanced by one
(30_encoding.md R84, 10_state.md R31). -/
def Obligations.StepRunsTheDecodedCommand : Prop :=
  ∀ (s : State) (w : CommandWord) (d : Data) (rest : List HostEvent) (i : Instr),
    s.fault = false → s.hostEvents = .command w d :: rest → decode w d = .ok i →
    step s = exec i (Presented s rest)

/-- While `FAULT = 1` only the exact STATUS word executes, every other word gets the response none and changes no state, and
only power-on reset clears `FAULT` (60_exceptions.md R254). -/
def Obligations.FaultedBlockExecutesOnlyStatus : Prop :=
  (∀ (s : State) (w : CommandWord) (d : Data) (rest : List HostEvent),
    s.fault = true → s.hostEvents = .command w d :: rest →
    (w = 0x00000004 → step s = exec .status (Presented s rest)) ∧
    (w ≠ 0x00000004 → step s = .next (Answered none (Presented s rest)))) ∧
  (∀ s t : State, step s = .next t → s.fault = true → (∀ rest, s.hostEvents ≠ .powerOnReset :: rest) →
    t.fault = true ∧ t.faultCode = s.faultCode)

/-- A block with no command presented keeps its state (60_exceptions.md R264; the model's choice for a step with nothing to do,
log 5). -/
def Obligations.IdleBlockKeepsItsState : Prop :=
  ∀ s : State, s.hostEvents = [] → step s = .next s

/-- Power-on reset gives every field its value of the table, whatever the state was, and so does `State.reset`
(70_reset_and_hazards.md R270). -/
def Obligations.PowerOnResetGivesTheTablesValues : Prop :=
  (∀ (s : State) (rest : List HostEvent), s.hostEvents = .powerOnReset :: rest →
    ∃ t, step s = .next t ∧ (∀ i, byteAt t.buf i = none) ∧ t.size = 0 ∧ t.complete = false ∧ t.consumed = false ∧
      t.curBase = 0 ∧ t.curPos = 0 ∧ t.curR = false ∧ t.curW = false ∧ t.fault = false ∧ t.faultCode = 0 ∧
      t.framerState = .empty) ∧
  (∀ i, byteAt State.reset.buf i = none) ∧ State.reset.size = 0 ∧ State.reset.complete = false ∧
  State.reset.consumed = false ∧ State.reset.curBase = 0 ∧ State.reset.curPos = 0 ∧ State.reset.curR = false ∧
  State.reset.curW = false ∧ State.reset.fault = false ∧ State.reset.faultCode = 0

/-- The invariant holds after reset (10_state.md R40). -/
def Obligations.ResetMeetsTheInvariant : Prop := Inv State.reset

/-- Every step from a state that meets the invariant gives a state that meets it (10_state.md R40). -/
def Obligations.StepKeepsTheInvariant : Prop :=
  ∀ s t : State, Inv s → step s = .next t → Inv t

/-- In a state that meets the invariant no step reaches past the buffer (20_memory.md R60, R62). -/
def Obligations.InvariantStatesStayInsideTheBuffer : Prop :=
  ∀ s : State, Inv s → (∃ t, step s = .next t) ∨ step s = .fault .unwrittenRead

/-- A command ends in one response, or reads a byte that holds no value; a command that takes a fault answers none, and no
command is refused (60_exceptions.md R250). -/
def Obligations.EveryCommandAnswersExactlyOnce : Prop :=
  ∀ (i : Instr) (s : State),
    (∃ t r, exec i s = .next t ∧ Answers r s t ∧ KeepsHost s t ∧ (s.fault = false → t.fault = true → r = none)) ∨
    exec i s = .fault .unwrittenRead ∨
    (exec i s = .fault .outsideBuffer ∧ Config.cap < s.size.toNat)

/-- Fault entry is precise: a command that takes a fault changes `FAULT` and `FAULT_CODE` only, and its response is none
(60_exceptions.md R253). -/
def Obligations.FaultEntryIsPrecise : Prop :=
  ∀ (i : Instr) (s t : State), s.fault = false → exec i s = .next t → t.fault = true →
    ∃ f : FaultName, t = FaultTaken f s

/-- The flag table (10_state.md R42). -/
def Obligations.FlagTable : Prop :=
  ∀ (i : Instr) (s t : State), s.fault = false → exec i s = .next t →
    (t.fault = true → t.complete = s.complete ∧ t.consumed = s.consumed) ∧
    (t.fault = false →
      (i = .addb 0x00 → s.complete = false → s.size.toNat ≠ Config.cap →
        t.complete = true ∧ t.consumed = s.consumed) ∧
      (i = .reset → t.complete = false ∧ t.consumed = false) ∧
      (i = .parse → s.complete = true → s.consumed = false → t.complete = s.complete ∧ t.consumed = true) ∧
      (i = .packetize → t.complete = true ∧ t.consumed = false) ∧
      (¬(i = .addb 0x00 ∧ s.complete = false ∧ s.size.toNat ≠ Config.cap) → i ≠ .reset →
        ¬(i = .parse ∧ s.complete = true ∧ s.consumed = false) → i ≠ .packetize →
        t.complete = s.complete ∧ t.consumed = s.consumed))

/-- A range that reaches past the buffer raises `CAPACITY_VIOLATION` before any byte is read or written, in every command
that names one, the empty range included (20_memory.md R62). -/
def Obligations.RangePastTheBufferFaults : Prop :=
  ∀ s : State,
    (∀ a, Config.cap < a + 1 → exec (.bufrd a) s = .next (FaultTaken .capacityViolation s) ∧
      ∀ b, exec (.bufwr a b) s = .next (FaultTaken .capacityViolation s)) ∧
    (∀ a n, Config.cap < a + n →
      exec (.cobsenc a n) s = .next (FaultTaken .capacityViolation s) ∧
      exec (.cobsdec a n) s = .next (FaultTaken .capacityViolation s) ∧
      exec (.crc32 a n) s = .next (FaultTaken .capacityViolation s) ∧
      ∀ seed, exec (.crc16 a n seed) s = .next (FaultTaken .capacityViolation s)) ∧
    (∀ a r w, Config.cap < a → exec (.curopen a r w) s = .next (FaultTaken .capacityViolation s)) ∧
    (s.curW = true →
      (Config.cap < cursorAddr s + 1 → ∀ v, exec (.put8 v) s = .next (FaultTaken .capacityViolation s)) ∧
      (Config.cap < cursorAddr s + 2 → ∀ v, exec (.put16 v) s = .next (FaultTaken .capacityViolation s)) ∧
      (Config.cap < cursorAddr s + 4 → ∀ v, exec (.put32 v) s = .next (FaultTaken .capacityViolation s)) ∧
      (Config.cap < cursorAddr s + 8 → ∀ v, exec (.put64 v) s = .next (FaultTaken .capacityViolation s))) ∧
    (s.curR = true →
      (Config.cap < cursorAddr s + 1 → exec .getu8 s = .next (FaultTaken .capacityViolation s) ∧
        exec .gets8 s = .next (FaultTaken .capacityViolation s)) ∧
      (Config.cap < cursorAddr s + 2 → exec .getu16 s = .next (FaultTaken .capacityViolation s) ∧
        exec .gets16 s = .next (FaultTaken .capacityViolation s)) ∧
      (Config.cap < cursorAddr s + 4 → exec .getu32 s = .next (FaultTaken .capacityViolation s) ∧
        exec .gets32 s = .next (FaultTaken .capacityViolation s)) ∧
      (Config.cap < cursorAddr s + 8 → exec .get64 s = .next (FaultTaken .capacityViolation s))) ∧
    (∀ sz : Byte, byteAt s.buf 1 = some sz → Config.cap < sz.toNat + 8 →
      exec .packetize s = .next (FaultTaken .capacityViolation s))

/-- A command that reads a byte holding no value stops with `UnwrittenRead` (60_exceptions.md R252). -/
def Obligations.ReadingAnUnwrittenByteStops : Prop :=
  ∀ s : State,
    (∀ a, a < Config.cap → byteAt s.buf a = none → exec (.bufrd a) s = .fault .unwrittenRead) ∧
    (∀ a n, a + n ≤ Config.cap → HasUnwritten s.buf a n →
      exec (.crc32 a n) s = .fault .unwrittenRead ∧ exec (.cobsdec a n) s = .fault .unwrittenRead ∧
      ∀ seed, exec (.crc16 a n seed) s = .fault .unwrittenRead) ∧
    (∀ a n, a + n ≤ Config.cap → 2 ≤ n → HasUnwritten s.buf (a + 1) (n - 2) →
      exec (.cobsenc a n) s = .fault .unwrittenRead) ∧
    (s.curR = true →
      (cursorAddr s + 1 ≤ Config.cap → HasUnwritten s.buf (cursorAddr s) 1 →
        exec .getu8 s = .fault .unwrittenRead ∧ exec .gets8 s = .fault .unwrittenRead) ∧
      (cursorAddr s + 2 ≤ Config.cap → HasUnwritten s.buf (cursorAddr s) 2 →
        exec .getu16 s = .fault .unwrittenRead ∧ exec .gets16 s = .fault .unwrittenRead) ∧
      (cursorAddr s + 4 ≤ Config.cap → HasUnwritten s.buf (cursorAddr s) 4 →
        exec .getu32 s = .fault .unwrittenRead ∧ exec .gets32 s = .fault .unwrittenRead) ∧
      (cursorAddr s + 8 ≤ Config.cap → HasUnwritten s.buf (cursorAddr s) 8 →
        exec .get64 s = .fault .unwrittenRead)) ∧
    (byteAt s.buf 1 = none → exec .packetize s = .fault .unwrittenRead) ∧
    (∀ sz : Byte, byteAt s.buf 1 = some sz → sz.toNat + 8 ≤ Config.cap → HasUnwritten s.buf 1 (sz.toNat + 2) →
      exec .packetize s = .fault .unwrittenRead) ∧
    (s.complete = true → s.consumed = false → 8 ≤ s.size.toNat → s.size.toNat ≤ Config.cap →
      HasUnwritten s.buf 0 s.size.toNat → exec .parse s = .fault .unwrittenRead)

/-! ### The framer -/

/-- RESET returns the framer to `Empty` and leaves the buffer, the cursor and the fault state (44_packet.md R204,
70_reset_and_hazards.md R272). -/
def Obligations.ResetReturnsTheFramerToEmpty : Prop :=
  ∀ s : State, ∃ t, exec .reset s = .next t ∧ t.size = 0 ∧ t.complete = false ∧ t.consumed = false ∧
    t.framerState = .empty ∧ Answers none s t ∧ KeepsBytes s t ∧ KeepsCursor s t ∧ KeepsFault s t ∧ KeepsHost s t

/-- ADDB accepts a byte at `buf[SIZE]`; the delimiter completes the frame (44_packet.md R201). -/
def Obligations.AddbAcceptsAByte : Prop :=
  ∀ (s : State) (b : Byte), s.complete = false → s.size.toNat < Config.cap →
    ∃ t, exec (.addb b) s = .next t ∧ byteAt t.buf s.size.toNat = some b ∧ KeepsBytesOutside s.size.toNat 1 s t ∧
      t.size.toNat = s.size.toNat + 1 ∧ (t.complete = true ↔ b = 0x00) ∧ t.consumed = s.consumed ∧
      Answers (some 1) s t ∧ KeepsCursor s t ∧ KeepsFault s t ∧ KeepsHost s t

/-- A refused ADDB changes no state; the response 0 is the whole effect (44_packet.md R202). -/
def Obligations.RefusedAddbChangesNothing : Prop :=
  ∀ (s : State) (b : Byte), s.complete = true ∨ s.size.toNat = Config.cap →
    exec (.addb b) s = .next (Answered (some 0) s)

/-- The framer's states follow the source's diagram (10_state.md R39). -/
def Obligations.FramerStatesFollowTheDiagram : Prop :=
  ∀ (s t : State) (b : Byte), s.consumed = false →
    (s.framerState = .empty ∨ s.framerState = .receiving → exec (.addb b) s = .next t →
      t.framerState = if b = 0x00 then .completeUnparsed
        else if s.size.toNat + 1 = Config.cap then .receivingFull else .receiving) ∧
    (s.framerState = .completeUnparsed → exec .parse s = .next t → t.framerState = .completeParsed) ∧
    (exec .reset s = .next t → t.framerState = .empty)

/-- The queries: COMPLETE and CURPOS respond their register, STATUS responds a word with every field in its place and the
reserved bits 0, and nothing else changes (44_packet.md R205, R206, 40_primitive_codec.md R103, 10_state.md R41). -/
def Obligations.QueriesReportTheState : Prop :=
  ∀ s : State,
    exec .complete s = .next (Answered (some (if s.complete then 1 else 0)) s) ∧
    exec .curpos s = .next (Answered (some (s.curPos.setWidth 64)) s) ∧
    ∃ v : Data, exec .status s = .next (Answered (some v) s) ∧
      v.extractLsb' 0 9 = s.size ∧ v.getLsbD 9 = s.complete ∧ v.getLsbD 10 = s.consumed ∧
      (v.getLsbD 11 = true ↔ s.size.toNat = Config.cap) ∧ v.getLsbD 12 = s.fault ∧ v.extractLsb' 13 3 = s.faultCode ∧
      v.extractLsb' 16 9 = s.curBase ∧ v.extractLsb' 25 9 = s.curPos ∧ v.getLsbD 34 = s.curR ∧
      v.getLsbD 35 = s.curW ∧ v.extractLsb' 36 28 = 0

/-- PARSE of a frame that is not complete responds 0 and changes no state (44_packet.md R216). -/
def Obligations.ParseOfAnIncompleteFrameRespondsZero : Prop :=
  ∀ s : State, s.complete = false → exec .parse s = .next (Answered (some 0) s)

/-- A second PARSE raises `DOUBLE_PARSE` and changes nothing else (44_packet.md R215). `COMPLETE = 1` follows from
`CONSUMED = 1` in every state of a run (10_state.md R40). -/
def Obligations.SecondParseFaults : Prop :=
  ∀ s : State, s.complete = true → s.consumed = true → exec .parse s = .next (FaultTaken .doubleParse s)

/-- A complete frame shorter than 8 bytes gives the response 0, leaves the buffer, and is consumed (44_packet.md R211). -/
def Obligations.ShortFrameParsesToZero : Prop :=
  ∀ s : State, s.complete = true → s.consumed = false → s.size.toNat < 8 →
    ∃ t, exec .parse s = .next t ∧ t.consumed = true ∧ t.size = s.size ∧ t.complete = s.complete ∧
      Answers (some 0) s t ∧ KeepsBytes s t ∧ KeepsCursor s t ∧ KeepsFault s t ∧ KeepsHost s t

/-- PARSE of a complete frame whose bytes all hold values: it always answers, consumes the frame, leaves everything outside
the frame, and by the outcome of the COBS decoding either empties the frame and responds 0, or leaves the decoded region in
place and responds the header's id exactly when the checksum and the header's size are right (44_packet.md R210 to R214,
R217, R218). -/
def Obligations.ParseChecksACompleteFrame : Prop :=
  ∀ (s : State) (frame : List Byte), s.complete = true → s.consumed = false → frame.length = s.size.toNat →
    8 ≤ frame.length → frame.length ≤ Config.cap → Holds s.buf 0 frame →
    ∃ t, exec .parse s = .next t ∧ t.size = s.size ∧ t.complete = s.complete ∧ t.consumed = true ∧
      KeepsBytesOutside 0 frame.length s t ∧ KeepsCursor s t ∧ KeepsFault s t ∧ KeepsHost s t ∧
      (cobsDecode frame = none → Answers (some 0) s t ∧ ∀ i, i < frame.length → byteAt t.buf i = none) ∧
      (∀ d, cobsDecode frame = some d →
        byteAt t.buf 0 = none ∧ (∀ i, 1 ≤ i → i < frame.length → byteAt t.buf i = d[i]?) ∧
        Answers (some
          (if leValue ((d.drop (frame.length - 5)).take 4) = (crc32 ((d.drop 1).take (frame.length - 6))).toNat ∧
              (d.getD 1 0).toNat + 2 = frame.length - 6
           then (d.getD 2 0).setWidth 64 else 0)) s t)

/-- A non-zero response of PARSE means a frame that passed every gate: the decoded region holds a body of `L - 6` bytes, its
CRC32 in the checksum slot, a header size that fits, and the id responded (44_packet.md R210 to R214, R217). -/
def Obligations.NonzeroIdMeansAValidFrame : Prop :=
  ∀ (s t : State) (v : Data), exec .parse s = .next t → Answers (some v) s t → v ≠ 0 →
    s.complete = true ∧ s.consumed = false ∧ 8 ≤ s.size.toNat ∧
    ∃ (body : List Byte) (sz id : Byte),
      body.length = s.size.toNat - 6 ∧ Holds t.buf 1 body ∧
      Holds t.buf (s.size.toNat - 5) (leBytes 4 (crc32 body).toNat) ∧
      byteAt t.buf 1 = some sz ∧ sz.toNat + 2 = s.size.toNat - 6 ∧ byteAt t.buf 2 = some id ∧ v = id.setWidth 64

/-- PACKETIZE builds the frame of the body at `buf[1 .. size+2]`: the stuffed body and CRC32 between the leading slot and the
delimiter; the framer then holds the frame as if received, so a later ADDB is refused (44_packet.md R220, R222). -/
def Obligations.PacketizeBuildsTheFrame : Prop :=
  ∀ (s : State) (body : List Byte) (sz : Byte), byteAt s.buf 1 = some sz → sz.toNat + 8 ≤ Config.cap →
    body.length = sz.toNat + 2 → Holds s.buf 1 body →
    ∃ t, exec .packetize s = .next t ∧ Holds t.buf 0 (cobsEncode (body ++ leBytes 4 (crc32 body).toNat)) ∧
      KeepsBytesOutside 0 (sz.toNat + 8) s t ∧ t.size.toNat = sz.toNat + 8 ∧ t.complete = true ∧ t.consumed = false ∧
      Answers (some (BitVec.ofNat 64 (sz.toNat + 8))) s t ∧ KeepsCursor s t ∧ KeepsFault s t ∧ KeepsHost s t ∧
      ∀ b, exec (.addb b) t = .next (Answered (some 0) t)

/-- PACKETIZE and then PARSE on the same block respond the header's id and leave the body as it was (44_packet.md R223). -/
def Obligations.PacketizeThenParseReturnsTheMessage : Prop :=
  ∀ (s : State) (body : List Byte) (sz id : Byte), byteAt s.buf 1 = some sz → byteAt s.buf 2 = some id →
    sz.toNat + 8 ≤ Config.cap → body.length = sz.toNat + 2 → Holds s.buf 1 body →
    ∃ t u, exec .packetize s = .next t ∧ exec .parse t = .next u ∧ Answers (some (id.setWidth 64)) t u ∧
      Holds u.buf 1 body

/-- PACKETIZE on a block A, its frame fed to a block B in `Empty` with ADDB in index order, and PARSE on B: every ADDB
responds 1, B ends `Complete` with `SIZE = L`, PARSE responds A's id, and B holds A's body (44_packet.md R223). -/
def Obligations.FedFrameParsesToTheMessageSent : Prop :=
  ∀ (a b : State) (body : List Byte) (sz id : Byte), byteAt a.buf 1 = some sz → byteAt a.buf 2 = some id →
    sz.toNat + 8 ≤ Config.cap → body.length = sz.toNat + 2 → Holds a.buf 1 body →
    b.size = 0 → b.complete = false → b.consumed = false →
    ∃ (t u v : State) (frame : List Byte), exec .packetize a = .next t ∧ frame.length = sz.toNat + 8 ∧
      Holds t.buf 0 frame ∧ feed frame b = .next u ∧
      u.responses = b.responses ++ List.replicate frame.length (some 1) ∧ u.size.toNat = frame.length ∧
      u.complete = true ∧ exec .parse u = .next v ∧ Answers (some (id.setWidth 64)) u v ∧ Holds v.buf 1 body

/-- After RESET, what is fed and parsed leaves no trace of what the block held before: any block answers as a fresh one does
(44_packet.md R224). -/
def Obligations.ReuseLeavesNoResidue : Prop :=
  ∀ (s r u v : State) (bs : List Byte), exec .reset s = .next r → feed bs r = .next u → exec .parse u = .next v →
    ∃ r' u' v', exec .reset State.reset = .next r' ∧ feed bs r' = .next u' ∧ exec .parse u' = .next v' ∧
      v'.responses.getLast? = v.responses.getLast? ∧ v'.size = v.size ∧ v'.complete = v.complete ∧
      ∀ i, i < v.size.toNat → byteAt v'.buf i = byteAt v.buf i

/-! ### The buffer port -/

/-- BUFRD responds the byte and changes nothing; BUFWR stores `DATA[7:0]` at its index only (45_buffer_port.md R240, R241). -/
def Obligations.BufferPortReadsAndWritesOneByte : Prop :=
  ∀ (s : State) (a : Nat) (b : Byte), a < Config.cap →
    (byteAt s.buf a = some b → exec (.bufrd a) s = .next (Answered (some (b.setWidth 64)) s)) ∧
    ∃ t, exec (.bufwr a b) s = .next t ∧ byteAt t.buf a = some b ∧ KeepsBytesOutside a 1 s t ∧ Answers none s t ∧
      KeepsFramer s t ∧ KeepsCursor s t ∧ KeepsFault s t ∧ KeepsHost s t

/-! ### The byte-stuffing codec -/

/-- The properties of `cobs_encode` (42_cobs.md R163): (a) the only zero byte is the last; (b) starting at position 0 and adding
each byte's value reaches each former zero of the interior and then position `L-1`, and no other position; (c) with no
interior zero the leading byte jumps straight to the delimiter, and with nothing but zeros every jump is 1. -/
def Obligations.EncodedRangeProperties : Prop :=
  ∀ xs : List Byte, xs.length + 2 ≤ Config.cap →
    (∀ i, i < xs.length + 2 → ((cobsEncode xs)[i]? = some 0x00 ↔ i = xs.length + 1)) ∧
    (∀ i, JumpsTo (cobsEncode xs) i ↔ i = 0 ∨ (1 ≤ i ∧ xs[i - 1]? = some 0x00) ∨ i = xs.length + 1) ∧
    ((∀ x ∈ xs, x ≠ 0x00) → (cobsEncode xs)[0]? = some (BitVec.ofNat 8 (xs.length + 1))) ∧
    ((∀ x ∈ xs, x = 0x00) → ∀ i, i < xs.length + 1 → (cobsEncode xs)[i]? = some 0x01)

/-- COBSENC encodes the range in place, whatever its two reserved slots held; non-zero interior bytes are never changed
(42_cobs.md R161, R162). -/
def Obligations.CobsencEncodesTheRange : Prop :=
  ∀ (s : State) (a : Nat) (xs : List Byte), a + (xs.length + 2) ≤ Config.cap → Holds s.buf (a + 1) xs →
    ∃ t, exec (.cobsenc a (xs.length + 2)) s = .next t ∧ Holds t.buf a (cobsEncode xs) ∧
      (∀ k, (h : k < xs.length) → xs[k] ≠ 0x00 → byteAt t.buf (a + 1 + k) = some xs[k]) ∧
      KeepsBytesOutside a (xs.length + 2) s t ∧ Answers none s t ∧ KeepsFramer s t ∧ KeepsCursor s t ∧
      KeepsFault s t ∧ KeepsHost s t

/-- COBSENC of fewer than 2 bytes raises `BAD_LENGTH`, after the range check (42_cobs.md R162, 60_exceptions.md R255). -/
def Obligations.CobsencOfAShortRangeFaults : Prop :=
  ∀ (s : State) (a n : Nat), n < 2 →
    (a + n ≤ Config.cap → exec (.cobsenc a n) s = .next (FaultTaken .badLength s)) ∧
    (Config.cap < a + n → exec (.cobsenc a n) s = .next (FaultTaken .capacityViolation s))

/-- COBSDEC of a range whose bytes all hold values always answers: `START + 1` with the decoded bytes in place and no value in
the leading slot, or 0 with no value in the whole range (42_cobs.md R164, R165). -/
def Obligations.CobsdecDecodesTheRange : Prop :=
  ∀ (s : State) (a : Nat) (r : List Byte), a + r.length ≤ Config.cap → Holds s.buf a r →
    ∃ t, exec (.cobsdec a r.length) s = .next t ∧ KeepsBytesOutside a r.length s t ∧
      KeepsFramer s t ∧ KeepsCursor s t ∧ KeepsFault s t ∧ KeepsHost s t ∧
      (cobsDecode r = none → Answers (some 0) s t ∧ ∀ i, a ≤ i → i < a + r.length → byteAt t.buf i = none) ∧
      (∀ d, cobsDecode r = some d → Answers (some (BitVec.ofNat 64 (a + 1))) s t ∧ byteAt t.buf a = none ∧
        byteAt t.buf (a + r.length - 1) = some 0x00 ∧ ∀ k, 1 ≤ k → k < r.length → byteAt t.buf (a + k) = d[k]?)

/-- COBSDEC fails on every malformed range: no room for both slots, a final byte that is not zero, a zero before the end, or
an offset that points past the end from a position the walk reaches (42_cobs.md R164). -/
def Obligations.MalformedRangesDoNotDecode : Prop :=
  ∀ r : List Byte,
    (r.length < 2 → cobsDecode r = none) ∧
    (∀ b, r.getLast? = some b → b ≠ 0x00 → cobsDecode r = none) ∧
    (∀ k, k + 1 < r.length → r[k]? = some 0x00 → cobsDecode r = none) ∧
    (∀ i b, JumpsTo r i → r[i]? = some b → r.length - 1 < i + b.toNat → cobsDecode r = none)

/-- The decoder accepts exactly the ranges the encoder can write (42_cobs.md R163, R164, R166). -/
def Obligations.DecodesExactlyTheEncodedRanges : Prop :=
  ∀ r : List Byte, r.length ≤ Config.cap → ((∃ d, cobsDecode r = some d) ↔ ∃ xs, r = cobsEncode xs)

/-- COBSENC and then COBSDEC succeed and leave the interior exactly as it was; encoding an encoded range again writes `L-1` in
its leading slot, which changes the range whenever the interior held a zero (42_cobs.md R166). -/
def Obligations.DecodingInvertsEncoding : Prop :=
  ∀ (s : State) (a : Nat) (xs : List Byte), a + (xs.length + 2) ≤ Config.cap → Holds s.buf (a + 1) xs →
    ∃ t u v, exec (.cobsenc a (xs.length + 2)) s = .next t ∧ exec (.cobsdec a (xs.length + 2)) t = .next u ∧
      Answers (some (BitVec.ofNat 64 (a + 1))) t u ∧ Holds u.buf (a + 1) xs ∧
      exec (.cobsenc a (xs.length + 2)) t = .next v ∧ byteAt v.buf a = some (BitVec.ofNat 8 (xs.length + 1)) ∧
      (0x00 ∈ xs → byteAt v.buf a ≠ byteAt t.buf a)

/-! ### The checksum unit -/

/-- CRC32 and CRC16 of a range whose bytes all hold values respond the checksum of its bytes in index order and change
nothing; the empty range responds 0 and the seed (41_checksum.md R142, R143, R145). -/
def Obligations.ChecksumCommandsRespondTheChecksum : Prop :=
  ∀ (s : State) (a : Nat) (bs : List Byte) (seed : BitVec 16), a + bs.length ≤ Config.cap → Holds s.buf a bs →
    exec (.crc32 a bs.length) s = .next (Answered (some ((crc32 bs).setWidth 64)) s) ∧
    exec (.crc16 a bs.length seed) s = .next (Answered (some ((crc16 seed bs).setWidth 64)) s) ∧
    (bs = [] → crc32 bs = 0 ∧ crc16 seed bs = seed)

/-- One byte enters the CRCs as the spec's loops take it: exclusive-or into the low bits, then 8 times shift right, with the
polynomial where the bit shifted out is 1 (41_checksum.md R142, R145). -/
def Obligations.ChecksumsAreTheShiftRightLoops : Prop :=
  ∀ (bs : List Byte) (b : Byte) (seed : BitVec 16),
    (∃ c : Nat → BitVec 32, c 0 = (crc32 bs ^^^ 0xFFFFFFFF) ^^^ b.setWidth 32 ∧
      (∀ k, c (k + 1) = if (c k).getLsbD 0 then (c k >>> 1) ^^^ 0xEDB88320 else c k >>> 1) ∧
      crc32 (bs ++ [b]) = c 8 ^^^ 0xFFFFFFFF) ∧
    (∃ c : Nat → BitVec 16, c 0 = crc16 seed bs ^^^ b.setWidth 16 ∧
      (∀ k, c (k + 1) = if (c k).getLsbD 0 then (c k >>> 1) ^^^ 0x8408 else c k >>> 1) ∧
      crc16 seed (bs ++ [b]) = c 8)

/-- CRC16 is incremental: a range in two parts, the second seeded with the first's response, responds what the whole range
does (41_checksum.md R145). -/
def Obligations.Crc16IsIncremental : Prop :=
  ∀ (s : State) (a m n : Nat) (seed : BitVec 16) (xs ys : List Byte), xs.length = m → ys.length = n →
    a + (m + n) ≤ Config.cap → Holds s.buf a xs → Holds s.buf (a + m) ys →
    ∃ (t : State) (c : BitVec 16) (v : Data), exec (.crc16 a m seed) s = .next t ∧ Answers (some (c.setWidth 64)) s t ∧
      exec (.crc16 (a + m) n c) t = .next (Answered (some v) t) ∧
      exec (.crc16 a (m + n) seed) s = .next (Answered (some v) s)

/-- An error confined to one byte changes the CRC32, so every single-bit error in the checked range does (41_checksum.md
R147). -/
def Obligations.OneCorruptedByteChangesTheCrc32 : Prop :=
  ∀ (pre post : List Byte) (b b' : Byte), b ≠ b' → crc32 (pre ++ b :: post) ≠ crc32 (pre ++ b' :: post)

/-! ### The cursor -/

/-- CUROPEN sets all four cursor fields, for every mode and every `START <= CAP` (40_primitive_codec.md R102). -/
def Obligations.CuropenSetsTheCursor : Prop :=
  ∀ (s : State) (a : Nat) (r w : Bool), a ≤ Config.cap →
    ∃ t, exec (.curopen a r w) s = .next t ∧ t.curBase.toNat = a ∧ t.curPos = 0 ∧ t.curR = r ∧ t.curW = w ∧
      Answers none s t ∧ KeepsBytes s t ∧ KeepsFramer s t ∧ KeepsFault s t ∧ KeepsHost s t

/-- PUT8, PUT16, PUT32 and PUT64 store their value little-endian at the cursor (40_primitive_codec.md R110 to R113,
20_memory.md R61). -/
def Obligations.PutsStoreLittleEndian : Prop :=
  ∀ s : State,
    (∀ v : BitVec 8, PutStores (.put8 v) 1 (v.setWidth 64) s) ∧
    (∀ v : BitVec 16, PutStores (.put16 v) 2 (v.setWidth 64) s) ∧
    (∀ v : BitVec 32, PutStores (.put32 v) 4 (v.setWidth 64) s) ∧
    (∀ v : BitVec 64, PutStores (.put64 v) 8 v s)

/-- GETU8, GETU16, GETU32 and GET64 respond the little-endian value, zero-extended (40_primitive_codec.md R121 to R124). -/
def Obligations.UnsignedGetsZeroExtend : Prop :=
  ∀ (s : State) (b0 b1 b2 b3 b4 b5 b6 b7 : Byte),
    GetResponds .getu8 [b0] (b0.setWidth 64) s ∧
    GetResponds .getu16 [b0, b1] ((b1 ++ b0).setWidth 64) s ∧
    GetResponds .getu32 [b0, b1, b2, b3] ((b3 ++ b2 ++ b1 ++ b0).setWidth 64) s ∧
    GetResponds .get64 [b0, b1, b2, b3, b4, b5, b6, b7]
      ((b7 ++ b6 ++ b5 ++ b4 ++ b3 ++ b2 ++ b1 ++ b0).setWidth 64) s

/-- GETS8, GETS16 and GETS32 respond the little-endian value, sign-extended (40_primitive_codec.md R125 to R127). -/
def Obligations.SignedGetsSignExtend : Prop :=
  ∀ (s : State) (b0 b1 b2 b3 : Byte),
    GetResponds .gets8 [b0] (b0.signExtend 64) s ∧
    GetResponds .gets16 [b0, b1] ((b1 ++ b0).signExtend 64) s ∧
    GetResponds .gets32 [b0, b1, b2, b3] ((b3 ++ b2 ++ b1 ++ b0).signExtend 64) s

/-- A write with `CUR_W = 0` and a read with `CUR_R = 0` are no-ops that respond none, wherever the cursor stands
(40_primitive_codec.md R101). -/
def Obligations.DisabledCursorAccessIsANoOp : Prop :=
  ∀ s : State,
    (s.curW = false →
      (∀ v, exec (.put8 v) s = .next (Answered none s)) ∧ (∀ v, exec (.put16 v) s = .next (Answered none s)) ∧
      (∀ v, exec (.put32 v) s = .next (Answered none s)) ∧ (∀ v, exec (.put64 v) s = .next (Answered none s))) ∧
    (s.curR = false →
      exec .getu8 s = .next (Answered none s) ∧ exec .getu16 s = .next (Answered none s) ∧
      exec .getu32 s = .next (Answered none s) ∧ exec .get64 s = .next (Answered none s) ∧
      exec .gets8 s = .next (Answered none s) ∧ exec .gets16 s = .next (Answered none s) ∧
      exec .gets32 s = .next (Answered none s))

/-- A PUT followed by a read of the same width at the same index returns the value, zero-extended, and sign-extended for GETS
(40_primitive_codec.md R128). -/
def Obligations.PutThenGetReturnsTheValue : Prop :=
  ∀ (s : State) (a : Nat),
    (∀ v : BitVec 8, a + 1 ≤ Config.cap →
      PutThenGet (.put8 v) .getu8 a (v.setWidth 64) s ∧ PutThenGet (.put8 v) .gets8 a (v.signExtend 64) s) ∧
    (∀ v : BitVec 16, a + 2 ≤ Config.cap →
      PutThenGet (.put16 v) .getu16 a (v.setWidth 64) s ∧ PutThenGet (.put16 v) .gets16 a (v.signExtend 64) s) ∧
    (∀ v : BitVec 32, a + 4 ≤ Config.cap →
      PutThenGet (.put32 v) .getu32 a (v.setWidth 64) s ∧ PutThenGet (.put32 v) .gets32 a (v.signExtend 64) s) ∧
    (∀ v : BitVec 64, a + 8 ≤ Config.cap → PutThenGet (.put64 v) .get64 a v s)

/-- A signed write is the PUT of the value's two's complement: the assembler's PUTI line decodes to it
(40_primitive_codec.md R120, 30_encoding.md R90, R91). -/
def Obligations.SignedWriteIsThePutOfTheTwosComplement : Prop :=
  ∀ v : Int,
    (-2 ^ 7 ≤ v → v < 2 ^ 8 → ∃ w d, assemble (.puti .w8 v) = some [.command w d] ∧
      decode w d = .ok (.put8 (BitVec.ofNat 8 (v % 2 ^ 8).toNat))) ∧
    (-2 ^ 15 ≤ v → v < 2 ^ 16 → ∃ w d, assemble (.puti .w16 v) = some [.command w d] ∧
      decode w d = .ok (.put16 (BitVec.ofNat 16 (v % 2 ^ 16).toNat))) ∧
    (-2 ^ 31 ≤ v → v < 2 ^ 32 → ∃ w d, assemble (.puti .w32 v) = some [.command w d] ∧
      decode w d = .ok (.put32 (BitVec.ofNat 32 (v % 2 ^ 32).toNat))) ∧
    (-2 ^ 63 ≤ v → v < 2 ^ 64 → ∃ w d, assemble (.puti .w64 v) = some [.command w d] ∧
      decode w d = .ok (.put64 (BitVec.ofNat 64 (v % 2 ^ 64).toNat)))

/-! ### Frames: what a command leaves unchanged whenever it answers a next state -/

/-- COMPLETE, STATUS, CURPOS, BUFRD, CRC32 and CRC16 change nothing but the responses and, on a range past the buffer, the
fault record (20_memory.md R67). -/
def Obligations.ReadingCommandsFrame : Prop :=
  ∀ (s t : State) (i : Instr),
    (i = .complete ∨ i = .status ∨ i = .curpos ∨ (∃ a, i = .bufrd a) ∨ (∃ a n, i = .crc32 a n) ∨
      ∃ a n seed, i = .crc16 a n seed) →
    exec i s = .next t →
    KeepsBytes s t ∧ KeepsFramer s t ∧ KeepsCursor s t ∧ KeepsHost s t ∧ KeepsFaultOr .capacityViolation s t

/-- The GETs change nothing but `CUR_POS`, the responses and the fault record (40_primitive_codec.md R101). -/
def Obligations.CursorReadsFrame : Prop :=
  ∀ (s t : State) (i : Instr), i ∈ [.getu8, .getu16, .getu32, .get64, .gets8, .gets16, .gets32] → exec i s = .next t →
    KeepsBytes s t ∧ KeepsFramer s t ∧ KeepsCursorButPos s t ∧ KeepsHost s t ∧ KeepsFaultOr .capacityViolation s t

/-- A PUT of `w` bytes changes only the bytes at the cursor, and no byte where it is disabled or past the buffer
(40_primitive_codec.md R101). -/
def Obligations.CursorWritesFrame : Prop :=
  ∀ (s t : State) (i : Instr) (w : Nat),
    ((∃ v, i = .put8 v ∧ w = 1) ∨ (∃ v, i = .put16 v ∧ w = 2) ∨ (∃ v, i = .put32 v ∧ w = 4) ∨ (∃ v, i = .put64 v ∧ w = 8)) →
    exec i s = .next t →
    KeepsBytesOutside (cursorAddr s) w s t ∧ (s.curW = false ∨ Config.cap < cursorAddr s + w → KeepsBytes s t) ∧
    KeepsFramer s t ∧ KeepsCursorButPos s t ∧ KeepsHost s t ∧ KeepsFaultOr .capacityViolation s t

/-- RESET changes no byte and ADDB only `buf[SIZE]`; neither touches the cursor or the fault record (44_packet.md R201,
R204). -/
def Obligations.ResetAndAddbFrame : Prop :=
  ∀ (s t : State) (b : Byte),
    (exec .reset s = .next t → KeepsBytes s t ∧ KeepsCursor s t ∧ KeepsFault s t ∧ KeepsHost s t) ∧
    (exec (.addb b) s = .next t → KeepsBytesOutside s.size.toNat 1 s t ∧ t.consumed = s.consumed ∧ KeepsCursor s t ∧
      KeepsFault s t ∧ KeepsHost s t)

/-- BUFWR changes only its byte, CUROPEN no byte; neither touches the framer (45_buffer_port.md R241,
40_primitive_codec.md R102). -/
def Obligations.BufwrAndCuropenFrame : Prop :=
  ∀ (s t : State) (a : Nat),
    (∀ b, exec (.bufwr a b) s = .next t → KeepsBytesOutside a 1 s t ∧ KeepsFramer s t ∧ KeepsCursor s t ∧
      KeepsHost s t ∧ KeepsFaultOr .capacityViolation s t) ∧
    (∀ r w, exec (.curopen a r w) s = .next t → KeepsBytes s t ∧ KeepsFramer s t ∧ KeepsHost s t ∧
      KeepsFaultOr .capacityViolation s t)

/-- COBSENC and COBSDEC change only the bytes of their range (42_cobs.md R162, R165). -/
def Obligations.CodecCommandsFrame : Prop :=
  ∀ (s t : State) (a n : Nat),
    (exec (.cobsenc a n) s = .next t → KeepsBytesOutside a n s t ∧ KeepsFramer s t ∧ KeepsCursor s t ∧ KeepsHost s t ∧
      (KeepsFaultOr .capacityViolation s t ∨ KeepsFaultOr .badLength s t)) ∧
    (exec (.cobsdec a n) s = .next t → KeepsBytesOutside a n s t ∧ KeepsFramer s t ∧ KeepsCursor s t ∧ KeepsHost s t ∧
      KeepsFaultOr .capacityViolation s t)

/-- PARSE changes only the bytes of the frame, PACKETIZE only those of the frame it builds; neither touches the cursor
(44_packet.md R210, R220). -/
def Obligations.ParseAndPacketizeFrame : Prop :=
  ∀ s t : State,
    (exec .parse s = .next t → KeepsBytesOutside 0 s.size.toNat s t ∧ t.size = s.size ∧ t.complete = s.complete ∧
      KeepsCursor s t ∧ KeepsHost s t ∧ KeepsFaultOr .doubleParse s t) ∧
    (∀ sz : Byte, byteAt s.buf 1 = some sz → exec .packetize s = .next t →
      KeepsBytesOutside 0 (frameLength sz.toNat) s t ∧ KeepsCursor s t ∧ KeepsHost s t ∧
      KeepsFaultOr .capacityViolation s t)

/-! ### Several blocks -/

/-- A step of one block leaves every other block alone and depends on that block only (20_memory.md R75,
60_exceptions.md R262). That several blocks are a list, of which one steps at a time, is the model's choice (DEDUCED, log 13). -/
def Obligations.ChannelsAreIndependent : Prop :=
  ∀ (k : Nat) (blocks blocks' : List State), stepChannel k blocks = some blocks' →
    (∀ j, j ≠ k → blocks'[j]? = blocks[j]?) ∧
    ∀ others : List State, others[k]? = blocks[k]? →
      ∃ others', stepChannel k others = some others' ∧ others'[k]? = blocks'[k]?
end

