-- ==== Sys2Proof/Laws/Memory.lean ====
section
/-! SUPPORT. The laws of the frame buffer: what a byte reads after each operation, that every operation keeps the canonical
form, and what the range reads and the little-endian forms give. -/

namespace Sys2Proof.Machine

theorem cap_eq : Config.cap = 256 := rfl

/-! ### Reading a byte after an operation -/

@[simp] theorem byteAt_nil (i : Nat) : byteAt [] i = none := rfl

theorem byteAt_insertByte (m : Memory) (a : Nat) (b : Byte) (i : Nat) :
    byteAt (insertByte m a b) i = if i = a then some b else byteAt m i := by
  induction m with
  | nil => simp [insertByte, byteAt, eq_comm]
  | cons c rest ih =>
    obtain ⟨k, v⟩ := c
    simp only [insertByte]
    split
    · simp [byteAt, eq_comm]
    · split
      · next h => subst h; by_cases hi : i = a <;> simp [byteAt, hi, Ne.symm]
      · next h =>
        by_cases hk : k = i
        · subst hk; simp [byteAt, Ne.symm h]
        · simp [byteAt, hk, ih]

/-- A store gives the byte stored, and leaves every other byte alone. -/
theorem byteAt_storeByte {m : Memory} {a : Nat} (h : a < Config.cap) (b : Byte) (i : Nat) :
    byteAt (storeByte m a b) i = if i = a then some b else byteAt m i := by
  simp [storeByte, h, byteAt_insertByte]

/-- Storing bytes gives the bytes stored, and leaves every other byte alone. -/
theorem byteAt_storeBytes {m : Memory} {a : Nat} {bs : List Byte} (h : a + bs.length ≤ Config.cap) (i : Nat) :
    byteAt (storeBytes m a bs) i = if a ≤ i ∧ i < a + bs.length then bs[i - a]? else byteAt m i := by
  induction bs generalizing m a with
  | nil =>
    have : ¬(a ≤ i ∧ i < a) := by omega
    simp [storeBytes, this]
  | cons b bs ih =>
    simp only [List.length_cons] at h
    rw [storeBytes, ih (by omega), byteAt_storeByte (by omega)]
    simp only [List.length_cons]
    by_cases h1 : a + 1 ≤ i ∧ i < a + 1 + bs.length
    · have h2 : i - a = (i - (a + 1)) + 1 := by omega
      rw [if_pos h1, if_pos (by omega), h2, List.getElem?_cons_succ]
    · rw [if_neg h1]
      by_cases h2 : i = a
      · subst h2; simp
      · rw [if_neg h2, if_neg (by omega)]

/-- Erasing a range leaves no value in it, and leaves every other byte alone. -/
theorem byteAt_eraseBytes (m : Memory) (a n i : Nat) :
    byteAt (eraseBytes m a n) i = if a ≤ i ∧ i < a + n then none else byteAt m i := by
  induction m with
  | nil => simp [eraseBytes, byteAt]
  | cons c rest ih =>
    obtain ⟨k, v⟩ := c
    simp only [eraseBytes, List.filter_cons] at ih ⊢
    by_cases hk : k < a ∨ a + n ≤ k
    · simp only [hk, decide_true, if_true, byteAt, ih]
      by_cases hki : k = i
      · subst hki
        have : ¬(a ≤ k ∧ k < a + n) := by omega
        simp [this]
      · simp [hki]
    · simp only [hk, decide_false, byteAt]
      rw [if_neg (by simp), ih]
      by_cases hki : k = i
      · subst hki
        have : a ≤ k ∧ k < a + n := by omega
        simp [this]
      · simp [hki]

/-! ### The canonical form -/

theorem wf_iff (m : Memory) :
    Memory.wf m = true ↔ (m.Pairwise fun c d => c.1 < d.1) ∧ ∀ c ∈ m, c.1 < Config.cap := by
  simp only [Memory.wf, Bool.and_eq_true, decide_eq_true_eq, List.all_eq_true]

theorem wf_nil : Memory.wf [] = true := by decide

theorem mem_insertByte {m : Memory} {a : Nat} {b : Byte} {c : Host.Cell} (h : c ∈ insertByte m a b) :
    c = (a, b) ∨ c ∈ m := by
  induction m with
  | nil => simpa [insertByte] using h
  | cons d rest ih =>
    obtain ⟨k, v⟩ := d
    simp only [insertByte] at h
    split at h
    · simpa using h
    · split at h
      · rcases List.mem_cons.1 h with h | h
        · exact .inl h
        · exact .inr (List.mem_cons_of_mem _ h)
      · rcases List.mem_cons.1 h with h | h
        · exact .inr (by simp [h])
        · rcases ih h with h | h
          · exact .inl h
          · exact .inr (List.mem_cons_of_mem _ h)

theorem pairwise_insertByte {m : Memory} (a : Nat) (b : Byte) (h : m.Pairwise fun c d => c.1 < d.1) :
    (insertByte m a b).Pairwise fun c d => c.1 < d.1 := by
  induction m with
  | nil => simp [insertByte]
  | cons d rest ih =>
    obtain ⟨k, v⟩ := d
    rw [List.pairwise_cons] at h
    simp only [insertByte]
    split
    · next hak =>
      refine List.pairwise_cons.2 ⟨fun c hc => ?_, List.pairwise_cons.2 h⟩
      rcases List.mem_cons.1 hc with rfl | hc
      · exact hak
      · exact Nat.lt_trans hak (h.1 c hc)
    · split
      · next hak => subst hak; exact List.pairwise_cons.2 h
      · next h1 h2 =>
        refine List.pairwise_cons.2 ⟨fun c hc => ?_, ih h.2⟩
        rcases mem_insertByte hc with rfl | hc
        · show k < a; omega
        · exact h.1 c hc

theorem wf_storeByte {m : Memory} (a : Nat) (b : Byte) (h : Memory.wf m = true) :
    Memory.wf (storeByte m a b) = true := by
  rw [wf_iff] at *
  unfold storeByte
  split
  · next ha =>
    refine ⟨pairwise_insertByte a b h.1, fun c hc => ?_⟩
    rcases mem_insertByte hc with rfl | hc
    · exact ha
    · exact h.2 c hc
  · exact h

theorem wf_storeBytes {m : Memory} (a : Nat) (bs : List Byte) (h : Memory.wf m = true) :
    Memory.wf (storeBytes m a bs) = true := by
  induction bs generalizing m a with
  | nil => exact h
  | cons b bs ih => exact ih (a + 1) (wf_storeByte a b h)

theorem wf_storeValue {m : Memory} (a n v : Nat) (h : Memory.wf m = true) : Memory.wf (storeValue m a n v) = true :=
  wf_storeBytes a _ h

theorem wf_eraseBytes {m : Memory} (a n : Nat) (h : Memory.wf m = true) : Memory.wf (eraseBytes m a n) = true := by
  rw [wf_iff] at *
  exact ⟨h.1.filter _, fun c hc => h.2 c (List.mem_filter.1 hc).1⟩

theorem byteAt_eq_some_iff {m : Memory} (h : Memory.wf m = true) (i : Nat) (b : Byte) :
    byteAt m i = some b ↔ (i, b) ∈ m := by
  replace h := ((wf_iff m).1 h).1
  induction m with
  | nil => simp
  | cons c rest ih =>
    obtain ⟨k, v⟩ := c
    rw [List.pairwise_cons] at h
    by_cases hk : k = i
    · subst hk
      have : (k, b) ∉ rest := fun hm => Nat.lt_irrefl k (h.1 (k, b) hm)
      simp [byteAt, this, eq_comm]
    · simp [byteAt, hk, ih h.2, Ne.symm hk]

/-- No index past the buffer holds a value. -/
theorem byteAt_of_cap_le {m : Memory} (h : Memory.wf m = true) {i : Nat} (hi : Config.cap ≤ i) : byteAt m i = none := by
  rcases hb : byteAt m i with _ | b
  · rfl
  · exact absurd (((wf_iff m).1 h).2 _ ((byteAt_eq_some_iff h i b).1 hb)) (by simpa using hi)

/-- Buffers in canonical form that read alike are equal. -/
theorem ext_of_byteAt {m m' : Memory} (h : Memory.wf m = true) (h' : Memory.wf m' = true)
    (e : ∀ i, byteAt m i = byteAt m' i) : m = m' := by
  have hm : ∀ c, c ∈ m ↔ c ∈ m' := fun ⟨i, b⟩ => by
    rw [← byteAt_eq_some_iff h, ← byteAt_eq_some_iff h', e]
  have nodup : ∀ {l : Memory}, Memory.wf l = true → l.Nodup := fun hl =>
    ((wf_iff _).1 hl).1.imp fun hlt he => by simp [he] at hlt
  refine List.Perm.eq_of_pairwise (le := fun c d => c.1 < d.1) (fun c d _ _ h1 h2 => absurd h1 (Nat.lt_asymm h2))
    ((wf_iff m).1 h).1 ((wf_iff m').1 h').1 ?_
  exact (List.perm_ext_iff_of_nodup (nodup h) (nodup h')).2 hm

/-! ### Reading ranges -/

theorem loadByte_eq_ok {m : Memory} {a : Nat} {b : Byte} :
    loadByte m a = .ok b ↔ a < Config.cap ∧ byteAt m a = some b := by
  unfold loadByte
  split
  · split <;> simp_all
  · simp_all

/-- A range reads as `bs` exactly when each of its bytes exists and holds the byte of `bs` at its place. -/
theorem loadBytes_eq_ok {m : Memory} {a n : Nat} {bs : List Byte} :
    loadBytes m a n = .ok bs ↔ bs.length = n ∧ ∀ k, k < n → a + k < Config.cap ∧ byteAt m (a + k) = bs[k]? := by
  induction n generalizing a bs with
  | zero => cases bs <;> simp [loadBytes]
  | succ n ih =>
    rw [loadBytes]
    constructor
    · intro h
      split at h
      · cases h
      · next b hb =>
        split at h
        · cases h
        · next bs' hbs =>
          cases h
          obtain ⟨hlen, hget⟩ := ih.1 hbs
          refine ⟨by simp [hlen], fun k hk => ?_⟩
          cases k with
          | zero => simpa using loadByte_eq_ok.1 hb
          | succ k => simpa [Nat.add_assoc, Nat.add_comm 1 k] using hget k (by omega)
    · rintro ⟨hlen, hget⟩
      cases bs with
      | nil => cases hlen
      | cons b bs =>
        have hb : loadByte m a = .ok b := loadByte_eq_ok.2 (by simpa using hget 0 (by omega))
        have hbs : loadBytes m (a + 1) n = .ok bs := ih.2 ⟨by simpa using hlen, fun k hk => by
          simpa [Nat.add_assoc, Nat.add_comm 1 k] using hget (k + 1) (by omega)⟩
        simp [hb, hbs]

theorem length_of_loadBytes {m : Memory} {a n : Nat} {bs : List Byte} (h : loadBytes m a n = .ok bs) : bs.length = n :=
  (loadBytes_eq_ok.1 h).1

/-- A range inside the buffer reads as the bytes that stand there. -/
theorem loadBytes_of_holds {m : Memory} {a : Nat} {bs : List Byte} (hcap : a + bs.length ≤ Config.cap)
    (h : Holds m a bs) : loadBytes m a bs.length = .ok bs :=
  loadBytes_eq_ok.2 ⟨rfl, fun k hk => ⟨by omega, by rw [h k hk, List.getElem?_eq_getElem hk]⟩⟩

/-- The bytes that were read stand in the buffer. -/
theorem holds_of_loadBytes {m : Memory} {a n : Nat} {bs : List Byte} (h : loadBytes m a n = .ok bs) : Holds m a bs := by
  obtain ⟨hlen, hget⟩ := loadBytes_eq_ok.1 h
  exact fun k hk => by rw [(hget k (hlen ▸ hk)).2, List.getElem?_eq_getElem hk]

/-- A range inside the buffer with a byte that holds no value stops the read with `UnwrittenRead`. -/
theorem loadBytes_of_hasUnwritten {m : Memory} {a n : Nat} (hcap : a + n ≤ Config.cap) (h : HasUnwritten m a n) :
    loadBytes m a n = .error .unwrittenRead := by
  induction n generalizing a with
  | zero => obtain ⟨k, hk, -⟩ := h; omega
  | succ n ih =>
    have ha : a < Config.cap := by omega
    cases hb : byteAt m a with
    | none => simp only [loadBytes, loadByte, ha, if_true, hb]
    | some b =>
      have hrest : HasUnwritten m (a + 1) n := by
        obtain ⟨k, hk, hnone⟩ := h
        cases k with
        | zero => simp [hb] at hnone
        | succ k => exact ⟨k, by omega, by rwa [Nat.add_assoc, Nat.add_comm 1 k]⟩
      simp only [loadBytes, loadByte, ha, if_true, hb, ih (by omega) hrest]

/-- A range inside the buffer either reads, or stops with `UnwrittenRead`. -/
theorem loadBytes_cases {m : Memory} {a n : Nat} (hcap : a + n ≤ Config.cap) :
    (∃ bs, loadBytes m a n = .ok bs) ∨ loadBytes m a n = .error .unwrittenRead := by
  by_cases h : HasUnwritten m a n
  · exact .inr (loadBytes_of_hasUnwritten hcap h)
  · refine .inl ?_
    induction n generalizing a with
    | zero => exact ⟨[], rfl⟩
    | succ n ih =>
      obtain ⟨b, hb⟩ : ∃ b, byteAt m a = some b := by
        cases hb : byteAt m a with
        | none => exact absurd ⟨0, by omega, hb⟩ h
        | some b => exact ⟨b, rfl⟩
      obtain ⟨bs, hbs⟩ := ih (a := a + 1) (by omega) fun ⟨k, hk, hn⟩ =>
        h ⟨k + 1, by omega, by rwa [Nat.add_comm k 1, ← Nat.add_assoc]⟩
      exact ⟨b :: bs, by simp only [loadBytes, loadByte_eq_ok.2 ⟨by omega, hb⟩, hbs]⟩

/-- A range reads alike in two buffers that agree on it. -/
theorem loadBytes_congr {m m' : Memory} {a n : Nat} (h : ∀ i, a ≤ i → i < a + n → byteAt m i = byteAt m' i) :
    loadBytes m a n = loadBytes m' a n := by
  induction n generalizing a with
  | zero => rfl
  | succ n ih =>
    have hb : loadByte m a = loadByte m' a := by simp only [loadByte, h a (by omega) (by omega)]
    simp only [loadBytes, hb, ih (a := a + 1) fun i h1 h2 => h i (by omega) (by omega)]

/-- Bytes just stored read back. -/
theorem loadBytes_storeBytes {m : Memory} {a : Nat} {bs : List Byte} (h : a + bs.length ≤ Config.cap) :
    loadBytes (storeBytes m a bs) a bs.length = .ok bs := by
  refine loadBytes_eq_ok.2 ⟨rfl, fun k hk => ⟨by omega, ?_⟩⟩
  rw [byteAt_storeBytes h, if_pos (by omega), Nat.add_sub_cancel_left]

/-! ### Little-endian values -/

@[simp] theorem length_leBytes (w v : Nat) : (leBytes w v).length = w := by
  induction w generalizing v with
  | zero => rfl
  | succ w ih => simp [leBytes, ih]

/-- The number a value's bytes hold is the value, reduced to the width (40_primitive_codec.md R128). -/
theorem leValue_leBytes (w v : Nat) : leValue (leBytes w v) = v % 256 ^ w := by
  induction w generalizing v with
  | zero => simp [leBytes, leValue, Nat.mod_one]
  | succ w ih =>
    have hp : 256 ^ (w + 1) = 256 * 256 ^ w := Nat.pow_succ'
    rw [leBytes, leValue, ih, BitVec.toNat_ofNat, hp, Nat.mod_mul]

theorem leValue_lt (bs : List Byte) : leValue bs < 256 ^ bs.length := by
  induction bs with
  | nil => simp [leValue]
  | cons b bs ih =>
    have := b.isLt
    simp only [leValue, List.length_cons, Nat.pow_succ]
    omega

/-- Byte `k` of a value is `v[8k+7:8k]` (00_scope.md R17). -/
theorem getElem_leBytes (w v k : Nat) (h : k < (leBytes w v).length) :
    (leBytes w v)[k] = BitVec.ofNat 8 (v / 256 ^ k) := by
  induction w generalizing v k with
  | zero => simp at h
  | succ w ih =>
    cases k with
    | zero => simp [leBytes]
    | succ k =>
      simp only [leBytes, List.getElem_cons_succ]
      rw [ih, Nat.div_div_eq_div_mul, Nat.pow_succ, Nat.mul_comm]

theorem loadValue_eq_ok {m : Memory} {a n v : Nat} :
    loadValue m a n = .ok v ↔ ∃ bs, loadBytes m a n = .ok bs ∧ leValue bs = v := by
  unfold loadValue
  split <;> simp_all

/-- A value just stored reads back, reduced to the width. -/
theorem loadValue_storeValue {m : Memory} {a n v : Nat} (h : a + n ≤ Config.cap) :
    loadValue (storeValue m a n v) a n = .ok (v % 256 ^ n) := by
  refine loadValue_eq_ok.2 ⟨leBytes n v, ?_, leValue_leBytes n v⟩
  have := loadBytes_storeBytes (m := m) (a := a) (bs := leBytes n v) (by simpa using h)
  simpa [storeValue] using this

end Sys2Proof.Machine
end

