-- ==== Sys2Proof/Machine/Catalog.lean ====
section
/-! DEFINITION. The header layout, and the host's side of it: the two illustrative message types with the codec of their
payloads, the dispatch check, and the command lists that send and receive a message (43_header_layout.md, 45_buffer_port.md R242). No step of the block uses it:
"the block never looks an id up" (R186). -/

namespace Sys2Proof.Machine

/-- The transaction of a command. -/
def eventOf (i : Instr) : HostEvent := .command (encode i).1 (encode i).2

/-- The header `size` of the decoded region, `buf[1]` (43_header_layout.md R180). -/
def headerSize (m : Memory) : Option Byte := byteAt m 1

/-- The header `id` of the decoded region, `buf[2]` (43_header_layout.md R180). -/
def headerId (m : Memory) : Option Byte := byteAt m 2

/-- The application payload of a decoded frame, `buf[3 .. size+2]` (43_header_layout.md R183, 44_packet.md R217). -/
def payloadOf (m : Memory) : Except Fault (List Byte) :=
  match loadByte m 1 with
  | .error f => .error f
  | .ok sz => loadBytes m 3 sz.toNat

/-- The body of a decoded frame, header and payload: `buf[1 .. size+2]` (43_header_layout.md R183). -/
def bodyOf (m : Memory) : Except Fault (List Byte) :=
  match loadByte m 1 with
  | .error f => .error f
  | .ok sz => loadBytes m 1 (sz.toNat + Config.hdr)

/-- A message type: "statically declares its own `id` and payload byte width" (43_header_layout.md R186). -/
structure MessageType where
  id    : Byte
  width : Nat
  deriving DecidableEq, Repr

/-- An id a message type may have: 0 means "invalid / no such message" and "must never be assigned to a real variant"
(43_header_layout.md R182). -/
def assignable (id : Byte) : Bool := id != 0

/-- A catalog assigns no type the id 0 (43_header_layout.md R182). -/
def catalogLegal (catalog : List MessageType) : Bool := catalog.all fun t => assignable t.id

/-- Battery voltage: id 2, one u16 (43_header_layout.md R187). -/
def batteryVoltage : MessageType := ⟨2, 2⟩

/-- Actuator command: eight u16, 16 bytes; its id is `ACTUATOR_ID`, free among the assignable ids (43_header_layout.md R188, log 11). -/
def actuatorCommand : MessageType := ⟨Config.actuatorId, 16⟩

/-! ### The payloads of the two message types -/

/-- A message: the fields of its payload. The spec gives a PWM value no unit and no range (43_header_layout.md R188). -/
inductive Message where
  /-- The one field `voltage_mv`, in millivolts (43_header_layout.md R187). -/
  | batteryVoltage (voltageMv : BitVec 16)
  /-- Eight PWM values, in order (43_header_layout.md R188). -/
  | actuatorCommand (pwm : Vector (BitVec 16) 8)
  deriving DecidableEq, Repr

/-- The type of a message (43_header_layout.md R187, R188). -/
def messageType : Message → MessageType
  | .batteryVoltage _ => batteryVoltage
  | .actuatorCommand _ => actuatorCommand

/-- The u16 fields of a message's payload, in order (43_header_layout.md R187, R188). -/
def messageFields : Message → List (BitVec 16)
  | .batteryVoltage v => [v]
  | .actuatorCommand pwm => pwm.toList

/-- u16 fields as bytes: "each field little-endian" (43_header_layout.md R183), arrays element by element
(40_primitive_codec.md R104). -/
def u16Bytes (vs : List (BitVec 16)) : List Byte := vs.flatMap fun v => leBytes 2 v.toNat

/-- The u16 fields that bytes hold; `none` where a byte is left over. -/
def readU16s : List Byte → Option (List (BitVec 16))
  | [] => some []
  | [_] => none
  | lo :: hi :: bs => (readU16s bs).map (BitVec.ofNat 16 (leValue [lo, hi]) :: ·)

/-- The payload of a message (43_header_layout.md R187, R188). -/
def messagePayload (m : Message) : List Byte := u16Bytes (messageFields m)

/-- The body of a message: size, id, payload (43_header_layout.md R180, R183). -/
def messageBody (m : Message) : List Byte :=
  [BitVec.ofNat 8 (messageType m).width, (messageType m).id] ++ messagePayload m

/-- The payload of a body of type `t`; `none` where the id is another or the id 0, which is
no message's (43_header_layout.md R182), or the header's size is not the type's width: "treat a
size mismatch as a parse failure" (43_header_layout.md R189). -/
def payloadAs (t : MessageType) : List Byte → Option (List Byte)
  | size :: id :: payload =>
    if assignable id ∧ id = t.id ∧ size.toNat = t.width ∧ payload.length = t.width then some payload else none
  | _ => none

/-- Read a battery-voltage body back (43_header_layout.md R187). -/
def readBatteryVoltage (body : List Byte) : Option Message :=
  match (payloadAs batteryVoltage body).bind readU16s with
  | some [v] => some (.batteryVoltage v)
  | _ => none

/-- Read an actuator-command body back (43_header_layout.md R188). -/
def readActuatorCommand (body : List Byte) : Option Message :=
  match (payloadAs actuatorCommand body).bind readU16s with
  | some vs => if h : vs.length = 8 then some (.actuatorCommand ⟨vs.toArray, by simpa using h⟩) else none
  | none => none

/-! ### What the host does -/

/-- The host's dispatch check after PARSE responds `id`: the catalog knows the id and its width is the header's size;
else the host treats the frame as invalid (43_header_layout.md R182, R189). -/
def hostAccepts (catalog : List MessageType) (id size : Byte) : Bool :=
  assignable id && catalog.any fun t => t.id == id && t.width == size.toNat

/-- The host's commands to build a frame: open the cursor at 1, write size, id and payload, PACKETIZE
(43_header_layout.md R184). -/
def sendCommands (id : Byte) (payload : List Byte) : List HostEvent :=
  [eventOf (.curopen 1 true true), eventOf (.put8 (BitVec.ofNat 8 payload.length)), eventOf (.put8 id)]
    ++ payload.map (fun b => eventOf (.put8 b)) ++ [eventOf .packetize]

/-- The host's commands to build a message's frame, field by field: the cursor at 1, PUTHDR, a PUT16 for each field,
PACKETIZE (43_header_layout.md R184, 30_encoding.md R91). -/
def sendMessage (m : Message) : List HostEvent :=
  [eventOf (.curopen 1 true true), eventOf (.put8 (BitVec.ofNat 8 (messageType m).width)), eventOf (.put8 (messageType m).id)]
    ++ (messageFields m).map (fun v => eventOf (.put16 v)) ++ [eventOf .packetize]

/-- The host's commands to read a decoded message of `n` u16 fields: the cursor at 1, size, id, the fields
(43_header_layout.md R185). -/
def receiveCommands (n : Nat) : List HostEvent :=
  [eventOf (.curopen 1 true false), eventOf .getu8, eventOf .getu8] ++ List.replicate n (eventOf .getu16)

/-- The host's commands to read a frame of length `len` out for the transport: BUFRD in index order
(45_buffer_port.md R242). -/
def transmitCommands (len : Nat) : List HostEvent :=
  (List.range len).map fun i => eventOf (.bufrd i)

/-- The host's commands to feed received bytes, one ADDB each (44_packet.md R200). -/
def feedCommands (bs : List Byte) : List HostEvent := bs.map fun b => eventOf (.addb b)

end Sys2Proof.Machine
end

