-- ==== Sys2Proof/Laws/Catalog.lean ====
section
/-! SUPPORT. The message codec: a payload is as wide as its type declares, and a message read back from its body is itself. -/

namespace Sys2Proof.Machine

@[simp] theorem length_u16Bytes (vs : List (BitVec 16)) : (u16Bytes vs).length = 2 * vs.length := by
  simp [u16Bytes, Nat.mul_comm]

/-- Fields written and read back are the fields. -/
@[simp] theorem readU16s_u16Bytes (vs : List (BitVec 16)) : readU16s (u16Bytes vs) = some vs := by
  induction vs with
  | nil => rfl
  | cons v vs ih =>
    have hv : BitVec.ofNat 16 (leValue (leBytes 2 v.toNat)) = v := by
      rw [leValue_leBytes]
      exact BitVec.eq_of_toNat_eq (by simp [Nat.mod_eq_of_lt v.isLt])
    have hc : u16Bytes (v :: vs) = leBytes 2 v.toNat ++ u16Bytes vs := rfl
    rw [hc]
    simp only [leBytes, List.cons_append, List.nil_append, readU16s, ih, Option.map_some] at hv ⊢
    rw [hv]

/-- "A message's declared `size` must equal the byte width its payload codec actually consumes/produces"
(43_header_layout.md R189). -/
theorem length_messagePayload (m : Message) : (messagePayload m).length = (messageType m).width := by
  cases m <;> simp [messagePayload, messageFields, messageType, batteryVoltage, actuatorCommand]

/-- `ACTUATOR_ID` is an assignable id, whatever it is (43_header_layout.md R182, R188). -/
theorem actuatorId_ne_zero : Config.actuatorId ≠ 0 := by
  intro h
  have h := congrArg BitVec.toNat h
  have hlt := Config.actuatorIdChoice.isLt
  simp [Config.actuatorId] at h
  omega

/-- No message has the id 0 (43_header_layout.md R182). -/
@[simp] theorem assignable_messageType (m : Message) : assignable (messageType m).id = true := by
  cases m
  · rfl
  · simpa [assignable, messageType, actuatorCommand] using actuatorId_ne_zero

/-- The catalog of the two illustrative types is legal (43_header_layout.md R182, R186). -/
theorem catalogLegal_illustrative : catalogLegal [batteryVoltage, actuatorCommand] = true := by
  simpa [catalogLegal, messageType] using
    And.intro (assignable_messageType (.batteryVoltage 0)) (assignable_messageType (.actuatorCommand (Vector.replicate 8 0)))

/-- A body with the id 0 is read as no message, whatever the type (43_header_layout.md R182). -/
theorem payloadAs_id_zero (t : MessageType) (size : Byte) (payload : List Byte) :
    payloadAs t (size :: 0 :: payload) = none := by
  simp [payloadAs, assignable]

/-- The host accepts no frame with the id 0, whatever its catalog (43_header_layout.md R182). -/
theorem hostAccepts_id_zero (catalog : List MessageType) (size : Byte) : hostAccepts catalog 0 size = false := rfl

/-- The payload of a message's body, read by its own type, is the message's payload. -/
@[simp] theorem payloadAs_messageBody (m : Message) : payloadAs (messageType m) (messageBody m) = some (messagePayload m) := by
  have hw : (messageType m).width % 256 = (messageType m).width := by cases m <;> rfl
  simp [payloadAs, messageBody, length_messagePayload, hw]

/-- A battery-voltage body reads back as its message (43_header_layout.md R187). -/
theorem readBatteryVoltage_messageBody (v : BitVec 16) :
    readBatteryVoltage (messageBody (.batteryVoltage v)) = some (.batteryVoltage v) := by
  have h := payloadAs_messageBody (.batteryVoltage v)
  simp only [messageType] at h
  simp [readBatteryVoltage, h, messagePayload, messageFields]

/-- An actuator-command body reads back as its message, whatever `ACTUATOR_ID` is (43_header_layout.md R188). -/
theorem readActuatorCommand_messageBody (pwm : Vector (BitVec 16) 8) :
    readActuatorCommand (messageBody (.actuatorCommand pwm)) = some (.actuatorCommand pwm) := by
  have h := payloadAs_messageBody (.actuatorCommand pwm)
  simp only [messageType] at h
  simp [readActuatorCommand, h, messagePayload, messageFields, Vector.toList]

end Sys2Proof.Machine
end

