-- ==== Sys2Proof/Laws/State.lean ====
section
/-! SUPPORT. One lemma per field per update of State, so that no later proof unfolds a record update. -/

namespace Sys2Proof.Machine

section

variable (s : State) (m : Memory)

@[simp] theorem setBuf_buf : (s.setBuf m).buf = m := rfl
@[simp] theorem setBuf_size : (s.setBuf m).size = s.size := rfl
@[simp] theorem setBuf_complete : (s.setBuf m).complete = s.complete := rfl
@[simp] theorem setBuf_consumed : (s.setBuf m).consumed = s.consumed := rfl
@[simp] theorem setBuf_curBase : (s.setBuf m).curBase = s.curBase := rfl
@[simp] theorem setBuf_curPos : (s.setBuf m).curPos = s.curPos := rfl
@[simp] theorem setBuf_curR : (s.setBuf m).curR = s.curR := rfl
@[simp] theorem setBuf_curW : (s.setBuf m).curW = s.curW := rfl
@[simp] theorem setBuf_fault : (s.setBuf m).fault = s.fault := rfl
@[simp] theorem setBuf_faultCode : (s.setBuf m).faultCode = s.faultCode := rfl
@[simp] theorem setBuf_hostEvents : (s.setBuf m).hostEvents = s.hostEvents := rfl
@[simp] theorem setBuf_position : (s.setBuf m).position = s.position := rfl
@[simp] theorem setBuf_responses : (s.setBuf m).responses = s.responses := rfl

end

section

variable (s : State) (n : BitVec 9) (c k : Bool)

@[simp] theorem setFramer_buf : (s.setFramer n c k).buf = s.buf := rfl
@[simp] theorem setFramer_size : (s.setFramer n c k).size = n := rfl
@[simp] theorem setFramer_complete : (s.setFramer n c k).complete = c := rfl
@[simp] theorem setFramer_consumed : (s.setFramer n c k).consumed = k := rfl
@[simp] theorem setFramer_curBase : (s.setFramer n c k).curBase = s.curBase := rfl
@[simp] theorem setFramer_curPos : (s.setFramer n c k).curPos = s.curPos := rfl
@[simp] theorem setFramer_curR : (s.setFramer n c k).curR = s.curR := rfl
@[simp] theorem setFramer_curW : (s.setFramer n c k).curW = s.curW := rfl
@[simp] theorem setFramer_fault : (s.setFramer n c k).fault = s.fault := rfl
@[simp] theorem setFramer_faultCode : (s.setFramer n c k).faultCode = s.faultCode := rfl
@[simp] theorem setFramer_hostEvents : (s.setFramer n c k).hostEvents = s.hostEvents := rfl
@[simp] theorem setFramer_position : (s.setFramer n c k).position = s.position := rfl
@[simp] theorem setFramer_responses : (s.setFramer n c k).responses = s.responses := rfl

end

section

variable (s : State) (n : BitVec 9) (r w : Bool)

@[simp] theorem openCursor_buf : (s.openCursor n r w).buf = s.buf := rfl
@[simp] theorem openCursor_size : (s.openCursor n r w).size = s.size := rfl
@[simp] theorem openCursor_complete : (s.openCursor n r w).complete = s.complete := rfl
@[simp] theorem openCursor_consumed : (s.openCursor n r w).consumed = s.consumed := rfl
@[simp] theorem openCursor_curBase : (s.openCursor n r w).curBase = n := rfl
@[simp] theorem openCursor_curPos : (s.openCursor n r w).curPos = 0 := rfl
@[simp] theorem openCursor_curR : (s.openCursor n r w).curR = r := rfl
@[simp] theorem openCursor_curW : (s.openCursor n r w).curW = w := rfl
@[simp] theorem openCursor_fault : (s.openCursor n r w).fault = s.fault := rfl
@[simp] theorem openCursor_faultCode : (s.openCursor n r w).faultCode = s.faultCode := rfl
@[simp] theorem openCursor_hostEvents : (s.openCursor n r w).hostEvents = s.hostEvents := rfl
@[simp] theorem openCursor_position : (s.openCursor n r w).position = s.position := rfl
@[simp] theorem openCursor_responses : (s.openCursor n r w).responses = s.responses := rfl

end

section

variable (s : State) (n : Nat)

@[simp] theorem advanceCursor_buf : (s.advanceCursor n).buf = s.buf := rfl
@[simp] theorem advanceCursor_size : (s.advanceCursor n).size = s.size := rfl
@[simp] theorem advanceCursor_complete : (s.advanceCursor n).complete = s.complete := rfl
@[simp] theorem advanceCursor_consumed : (s.advanceCursor n).consumed = s.consumed := rfl
@[simp] theorem advanceCursor_curBase : (s.advanceCursor n).curBase = s.curBase := rfl
@[simp] theorem advanceCursor_curPos : (s.advanceCursor n).curPos = s.curPos + BitVec.ofNat 9 n := rfl
@[simp] theorem advanceCursor_curR : (s.advanceCursor n).curR = s.curR := rfl
@[simp] theorem advanceCursor_curW : (s.advanceCursor n).curW = s.curW := rfl
@[simp] theorem advanceCursor_fault : (s.advanceCursor n).fault = s.fault := rfl
@[simp] theorem advanceCursor_faultCode : (s.advanceCursor n).faultCode = s.faultCode := rfl
@[simp] theorem advanceCursor_hostEvents : (s.advanceCursor n).hostEvents = s.hostEvents := rfl
@[simp] theorem advanceCursor_position : (s.advanceCursor n).position = s.position := rfl
@[simp] theorem advanceCursor_responses : (s.advanceCursor n).responses = s.responses := rfl

end

section

variable (s : State) (c : BitVec 3)

@[simp] theorem setFault_buf : (s.setFault c).buf = s.buf := rfl
@[simp] theorem setFault_size : (s.setFault c).size = s.size := rfl
@[simp] theorem setFault_complete : (s.setFault c).complete = s.complete := rfl
@[simp] theorem setFault_consumed : (s.setFault c).consumed = s.consumed := rfl
@[simp] theorem setFault_curBase : (s.setFault c).curBase = s.curBase := rfl
@[simp] theorem setFault_curPos : (s.setFault c).curPos = s.curPos := rfl
@[simp] theorem setFault_curR : (s.setFault c).curR = s.curR := rfl
@[simp] theorem setFault_curW : (s.setFault c).curW = s.curW := rfl
@[simp] theorem setFault_fault : (s.setFault c).fault = true := rfl
@[simp] theorem setFault_faultCode : (s.setFault c).faultCode = c := rfl
@[simp] theorem setFault_hostEvents : (s.setFault c).hostEvents = s.hostEvents := rfl
@[simp] theorem setFault_position : (s.setFault c).position = s.position := rfl
@[simp] theorem setFault_responses : (s.setFault c).responses = s.responses := rfl

end

section

variable (s : State) (r : Response)

@[simp] theorem answer_buf : (s.answer r).buf = s.buf := rfl
@[simp] theorem answer_size : (s.answer r).size = s.size := rfl
@[simp] theorem answer_complete : (s.answer r).complete = s.complete := rfl
@[simp] theorem answer_consumed : (s.answer r).consumed = s.consumed := rfl
@[simp] theorem answer_curBase : (s.answer r).curBase = s.curBase := rfl
@[simp] theorem answer_curPos : (s.answer r).curPos = s.curPos := rfl
@[simp] theorem answer_curR : (s.answer r).curR = s.curR := rfl
@[simp] theorem answer_curW : (s.answer r).curW = s.curW := rfl
@[simp] theorem answer_fault : (s.answer r).fault = s.fault := rfl
@[simp] theorem answer_faultCode : (s.answer r).faultCode = s.faultCode := rfl
@[simp] theorem answer_hostEvents : (s.answer r).hostEvents = s.hostEvents := rfl
@[simp] theorem answer_position : (s.answer r).position = s.position := rfl
@[simp] theorem answer_responses : (s.answer r).responses = s.responses ++ [r] := rfl

end

section

variable (s : State) (l : List HostEvent)

@[simp] theorem takeCommand_buf : (s.takeCommand l).buf = s.buf := rfl
@[simp] theorem takeCommand_size : (s.takeCommand l).size = s.size := rfl
@[simp] theorem takeCommand_complete : (s.takeCommand l).complete = s.complete := rfl
@[simp] theorem takeCommand_consumed : (s.takeCommand l).consumed = s.consumed := rfl
@[simp] theorem takeCommand_curBase : (s.takeCommand l).curBase = s.curBase := rfl
@[simp] theorem takeCommand_curPos : (s.takeCommand l).curPos = s.curPos := rfl
@[simp] theorem takeCommand_curR : (s.takeCommand l).curR = s.curR := rfl
@[simp] theorem takeCommand_curW : (s.takeCommand l).curW = s.curW := rfl
@[simp] theorem takeCommand_fault : (s.takeCommand l).fault = s.fault := rfl
@[simp] theorem takeCommand_faultCode : (s.takeCommand l).faultCode = s.faultCode := rfl
@[simp] theorem takeCommand_hostEvents : (s.takeCommand l).hostEvents = l := rfl
@[simp] theorem takeCommand_position : (s.takeCommand l).position = s.position + 1 := rfl
@[simp] theorem takeCommand_responses : (s.takeCommand l).responses = s.responses := rfl

end

section

variable (s : State) (l : List HostEvent)

@[simp] theorem powerOnReset_buf : (s.powerOnReset l).buf = [] := rfl
@[simp] theorem powerOnReset_size : (s.powerOnReset l).size = 0 := rfl
@[simp] theorem powerOnReset_complete : (s.powerOnReset l).complete = false := rfl
@[simp] theorem powerOnReset_consumed : (s.powerOnReset l).consumed = false := rfl
@[simp] theorem powerOnReset_curBase : (s.powerOnReset l).curBase = 0 := rfl
@[simp] theorem powerOnReset_curPos : (s.powerOnReset l).curPos = 0 := rfl
@[simp] theorem powerOnReset_curR : (s.powerOnReset l).curR = false := rfl
@[simp] theorem powerOnReset_curW : (s.powerOnReset l).curW = false := rfl
@[simp] theorem powerOnReset_fault : (s.powerOnReset l).fault = false := rfl
@[simp] theorem powerOnReset_faultCode : (s.powerOnReset l).faultCode = 0 := rfl
@[simp] theorem powerOnReset_hostEvents : (s.powerOnReset l).hostEvents = l := rfl
@[simp] theorem powerOnReset_position : (s.powerOnReset l).position = s.position := rfl
@[simp] theorem powerOnReset_responses : (s.powerOnReset l).responses = s.responses := rfl

end

section

variable (s : State) (w : CommandWord) (d : Data)

@[simp] theorem present_buf : (s.present w d).buf = s.buf := rfl
@[simp] theorem present_size : (s.present w d).size = s.size := rfl
@[simp] theorem present_complete : (s.present w d).complete = s.complete := rfl
@[simp] theorem present_consumed : (s.present w d).consumed = s.consumed := rfl
@[simp] theorem present_curBase : (s.present w d).curBase = s.curBase := rfl
@[simp] theorem present_curPos : (s.present w d).curPos = s.curPos := rfl
@[simp] theorem present_curR : (s.present w d).curR = s.curR := rfl
@[simp] theorem present_curW : (s.present w d).curW = s.curW := rfl
@[simp] theorem present_fault : (s.present w d).fault = s.fault := rfl
@[simp] theorem present_faultCode : (s.present w d).faultCode = s.faultCode := rfl
@[simp] theorem present_hostEvents : (s.present w d).hostEvents = .command w d :: s.hostEvents := rfl
@[simp] theorem present_position : (s.present w d).position = s.position := rfl
@[simp] theorem present_responses : (s.present w d).responses = s.responses := rfl

end

end Sys2Proof.Machine
end

