-- ==== Sys2Proof/Laws/Ops.lean ====
section
/-! SUPPORT. What each shared operation can answer, said once: ending a command, the range check, going on with a read, the
cursor's read and write. -/

namespace Sys2Proof.Machine

/-! ### Ending a command -/

theorem respond_next {v : Data} {s t : State} : respond v s = .next t ↔ t = s.answer (some v) := by
  simp [respond, eq_comm]

theorem respondNone_next {s t : State} : respondNone s = .next t ↔ t = s.answer none := by
  simp [respondNone, eq_comm]

/-- Taking a fault records it, answers none, and changes nothing else (60_exceptions.md R253). -/
theorem raiseFault_next {f : FaultName} {s t : State} :
    raiseFault f s = .next t ↔ t = (s.setFault (faultCodeOf f)).answer none := by
  simp [raiseFault, respondNone, eq_comm]

theorem faultCodeOf_ne_zero (f : FaultName) : faultCodeOf f ≠ 0 := by cases f <;> decide

theorem faultCodeOf_le (f : FaultName) : (faultCodeOf f).toNat ≤ 4 := by cases f <;> decide

/-! ### Going on -/

@[simp] theorem readThen_ok {α : Type} (v : α) (k : α → Result) : readThen (.ok v) k = k v := rfl

@[simp] theorem readThen_error {α : Type} (f : Fault) (k : α → Result) : readThen (.error f) k = .fault f := rfl

/-- A command that answers a next state after a read has read a value and gone on with it. -/
theorem readThen_next {α : Type} {r : Except Fault α} {k : α → Result} {t : State} :
    readThen r k = .next t ↔ ∃ v, r = .ok v ∧ k v = .next t := by
  cases r <;> simp

theorem readThen_fault {α : Type} {r : Except Fault α} {k : α → Result} {f : Fault} :
    readThen r k = .fault f ↔ r = .error f ∨ ∃ v, r = .ok v ∧ k v = .fault f := by
  cases r <;> simp

theorem checkRange_of_le {a n : Nat} {s : State} {k : Result} (h : a + n ≤ Config.cap) : checkRange a n s k = k :=
  if_pos h

/-- A range past the buffer takes `CAPACITY_VIOLATION` (20_memory.md R62). -/
theorem checkRange_of_lt {a n : Nat} {s : State} {k : Result} (h : Config.cap < a + n) :
    checkRange a n s k = raiseFault .capacityViolation s :=
  if_neg (Nat.not_le.2 h)

theorem checkRange_next {a n : Nat} {s t : State} {k : Result} :
    checkRange a n s k = .next t ↔
      (a + n ≤ Config.cap ∧ k = .next t) ∨
      (Config.cap < a + n ∧ t = (s.setFault (faultCodeOf .capacityViolation)).answer none) := by
  unfold checkRange
  split
  · next h => simp [h, Nat.not_lt.2 h]
  · next h => simp [h, Nat.lt_of_not_le h, raiseFault_next]

/-! ### The cursor -/

/-- Everything a cursor write can answer: a no-op, a fault, or the bytes stored and the position advanced
(40_primitive_codec.md R101). -/
theorem cursorWrite_next {w v : Nat} {s t : State} :
    cursorWrite w v s = .next t ↔
      (s.curW = false ∧ t = s.answer none) ∨
      (s.curW = true ∧ cursorAddr s + w ≤ Config.cap ∧
        t = ((s.setBuf (storeValue s.buf (cursorAddr s) w v)).advanceCursor w).answer none) ∨
      (s.curW = true ∧ Config.cap < cursorAddr s + w ∧
        t = (s.setFault (faultCodeOf .capacityViolation)).answer none) := by
  unfold cursorWrite
  cases h : s.curW <;> simp [respondNone_next, checkRange_next]

/-- Everything a cursor read can answer (40_primitive_codec.md R101). -/
theorem cursorRead_next {w : Nat} {ext : Nat → Data} {s t : State} :
    cursorRead w ext s = .next t ↔
      (s.curR = false ∧ t = s.answer none) ∨
      (s.curR = true ∧ cursorAddr s + w ≤ Config.cap ∧
        ∃ v, loadValue s.buf (cursorAddr s) w = .ok v ∧ t = (s.advanceCursor w).answer (some (ext v))) ∨
      (s.curR = true ∧ Config.cap < cursorAddr s + w ∧
        t = (s.setFault (faultCodeOf .capacityViolation)).answer none) := by
  unfold cursorRead
  cases h : s.curR <;> simp [respondNone_next, respond_next, checkRange_next, readThen_next]

/-- An access inside the buffer advances `CUR_POS` without wrapping. -/
theorem toNat_advance {p : BitVec 9} {n : Nat} (h : p.toNat + n ≤ Config.cap) :
    (p + BitVec.ofNat 9 n).toNat = p.toNat + n := by
  have := cap_eq
  simp only [BitVec.toNat_add, BitVec.toNat_ofNat]
  omega

end Sys2Proof.Machine
end

