-- ==== Sys2Proof/Laws/Cobs.lean ====
section
/-! SUPPORT. The byte-stuffing codec: the encoder's loop equals a structural function, both functions keep a range's length,
and what encoding and decoding in the buffer answer. -/

namespace Sys2Proof.Machine

/-- The encoder without positions: the distance from just before a list of interior bytes to its first replacement point (or
to the delimiter after it), and the stuffed bytes. -/
def cobsStuff : List Byte → Nat × List Byte
  | [] => (1, [])
  | x :: xs =>
    if x = 0 then (1, BitVec.ofNat 8 (cobsStuff xs).1 :: (cobsStuff xs).2)
    else ((cobsStuff xs).1 + 1, x :: (cobsStuff xs).2)

theorem cobsStuff_pos (xs : List Byte) : 1 ≤ (cobsStuff xs).1 := by
  cases xs with
  | nil => simp [cobsStuff]
  | cons x xs => simp only [cobsStuff]; split <;> simp

theorem cobsStuff_le (xs : List Byte) : (cobsStuff xs).1 ≤ xs.length + 1 := by
  induction xs with
  | nil => simp [cobsStuff]
  | cons x xs ih => simp only [cobsStuff, List.length_cons]; split <;> (simp; try omega)

@[simp] theorem length_cobsStuff (xs : List Byte) : (cobsStuff xs).2.length = xs.length := by
  induction xs with
  | nil => rfl
  | cons x xs ih => simp only [cobsStuff]; split <;> simp [ih]

/-- The loop of 42_cobs.md R161, run over the interior `xs` that stands after `p`, and its last write: the distance lands at
the replacement point `last` of `p`, and the interior is stuffed. -/
theorem cobsScan_eq_stuff (xs p : List Byte) (last : Nat) (h : last < p.length) :
    let out := cobsScan xs.length p.length last (p ++ xs ++ [0])
    out.1.set out.2 (BitVec.ofNat 8 (p.length + xs.length - out.2))
      = p.set last (BitVec.ofNat 8 (p.length - 1 + (cobsStuff xs).1 - last)) ++ (cobsStuff xs).2 ++ [0] := by
  induction xs generalizing p last with
  | nil =>
    simp only [List.length_nil, cobsScan, cobsStuff, List.append_nil, Nat.add_zero]
    rw [List.set_append_left _ _ h, Nat.sub_add_cancel (by omega)]
  | cons x xs ih =>
    have hget : (p ++ x :: xs ++ [0]).getD p.length 0 = x := by simp [List.getD]
    have hlen : p.length + (x :: xs).length = (p.length + 1) + xs.length := by simp; omega
    simp only [List.length_cons] at hlen
    simp only [List.length_cons, cobsScan, hget, hlen]
    by_cases hx : x = 0
    · have hset : (p ++ x :: xs ++ [0]).set last (BitVec.ofNat 8 (p.length - last))
          = (p.set last (BitVec.ofNat 8 (p.length - last)) ++ [x]) ++ xs ++ [0] := by
        rw [List.append_assoc, List.set_append_left _ _ h]; simp
      have := ih (p.set last (BitVec.ofNat 8 (p.length - last)) ++ [x]) p.length (by simp)
      simp only [List.length_append, List.length_set, List.length_singleton] at this
      rw [if_pos hx, hset, this, List.set_append_right _ _ (by simp)]
      have h1 : p.length - 1 + 1 - last = p.length - last := by omega
      have h2 : p.length + 1 - 1 + (cobsStuff xs).1 - p.length = (cobsStuff xs).1 := by omega
      simp [cobsStuff, hx, h1]
    · have hset : p ++ x :: xs ++ [0] = (p ++ [x]) ++ xs ++ [0] := by simp
      have := ih (p ++ [x]) last (by simp; omega)
      simp only [List.length_append, List.length_singleton] at this
      rw [if_neg hx, hset, this, List.set_append_left _ _ h]
      have h1 : p.length - 1 + ((cobsStuff xs).1 + 1) - last = p.length + 1 - 1 + (cobsStuff xs).1 - last := by omega
      have hx' : (cobsStuff (x :: xs)) = ((cobsStuff xs).1 + 1, x :: (cobsStuff xs).2) := by
        simp only [cobsStuff, if_neg hx]
      rw [hx', h1]
      simp

/-- `cobs_encode` is the stuffing function: the distance in the leading slot, the stuffed interior, the delimiter. -/
theorem cobsEncode_eq_stuff (xs : List Byte) :
    cobsEncode xs = BitVec.ofNat 8 (cobsStuff xs).1 :: (cobsStuff xs).2 ++ [0] := by
  have h := cobsScan_eq_stuff xs [0] 0 (by simp)
  simp only [List.length_singleton, List.singleton_append, Nat.sub_self, Nat.zero_add, Nat.sub_zero,
    List.set_cons_zero] at h
  have hd : xs.length + 2 - 1 = 1 + xs.length := by omega
  simp only [cobsEncode, hd]
  rw [h]
  have hl : 1 + xs.length = (BitVec.ofNat 8 (cobsStuff xs).1 :: (cobsStuff xs).2).length := by simp; omega
  rw [List.set_append_right _ _ (Nat.le_of_eq hl.symm), hl]
  simp [Config.delimiter]

@[simp] theorem length_cobsEncode (xs : List Byte) : (cobsEncode xs).length = xs.length + 2 := by
  simp [cobsEncode_eq_stuff]

theorem length_cobsWalk {k i : Nat} {r d : List Byte} (h : cobsWalk k i r = some d) : d.length = r.length := by
  induction k generalizing i r with
  | zero => simp [cobsWalk] at h
  | succ k ih =>
    have hset : (if 0 < i then r.set i 0 else r).length = r.length := by split <;> simp
    simp only [cobsWalk] at h
    split at h
    · cases h
    · split at h
      · cases h; exact hset
      · exact (ih h).trans hset

theorem length_cobsDecode {r d : List Byte} (h : cobsDecode r = some d) : d.length = r.length := by
  unfold cobsDecode at h
  split at h
  · cases h
  · split at h
    · cases h
    · split at h
      · cases h
      · exact length_cobsWalk h

/-- A range that decodes has both reserved slots. -/
theorem two_le_of_cobsDecode {r d : List Byte} (h : cobsDecode r = some d) : 2 ≤ r.length := by
  unfold cobsDecode at h
  split at h
  · cases h
  · omega

/-- Encoding in the buffer: the interior read, and the encoded range stored. -/
theorem cobsEncodeAt_eq_ok {m m' : Memory} {start len : Nat} :
    cobsEncodeAt m start len = .ok m' ↔
      ∃ xs, loadBytes m (start + 1) (len - 2) = .ok xs ∧ m' = storeBytes m start (cobsEncode xs) := by
  unfold cobsEncodeAt
  cases h : loadBytes m (start + 1) (len - 2) <;> simp [eq_comm]

/-- Decoding in the buffer: the range read, then rewritten with its leading slot empty, or emptied (42_cobs.md R164). -/
theorem cobsDecodeAt_eq_ok {m : Memory} {start len : Nat} {out : Bool × Memory} :
    cobsDecodeAt m start len = .ok out ↔
      ∃ r, loadBytes m start len = .ok r ∧
        ((∃ d, cobsDecode r = some d ∧ out = (true, eraseBytes (storeBytes m start d) start 1)) ∨
         (cobsDecode r = none ∧ out = (false, eraseBytes m start len))) := by
  unfold cobsDecodeAt
  cases h : loadBytes m start len with
  | error f => simp
  | ok r => cases hd : cobsDecode r <;> simp [hd, eq_comm]

/-- Encoding leaves every byte outside its range alone. -/
theorem byteAt_cobsEncodeAt {m m' : Memory} {start len : Nat} (h2 : 2 ≤ len) (hcap : start + len ≤ Config.cap)
    (h : cobsEncodeAt m start len = .ok m') {i : Nat} (hi : i < start ∨ start + len ≤ i) : byteAt m' i = byteAt m i := by
  obtain ⟨xs, hxs, rfl⟩ := cobsEncodeAt_eq_ok.1 h
  have hlen := length_of_loadBytes hxs
  rw [byteAt_storeBytes (by simp; omega), if_neg (by simp; omega)]

/-- Decoding leaves every byte outside its range alone. -/
theorem byteAt_cobsDecodeAt {m : Memory} {start len : Nat} {out : Bool × Memory} (hcap : start + len ≤ Config.cap)
    (h : cobsDecodeAt m start len = .ok out) {i : Nat} (hi : i < start ∨ start + len ≤ i) :
    byteAt out.2 i = byteAt m i := by
  obtain ⟨r, hr, ⟨d, hd, rfl⟩ | ⟨hd, rfl⟩⟩ := cobsDecodeAt_eq_ok.1 h
  · have hlen := (length_cobsDecode hd).trans (length_of_loadBytes hr)
    have h2 := two_le_of_cobsDecode hd
    have hr' := length_of_loadBytes hr
    rw [byteAt_eraseBytes, if_neg (by omega), byteAt_storeBytes (by omega), if_neg (by omega)]
  · rw [byteAt_eraseBytes, if_neg (by omega)]

theorem wf_cobsEncodeAt {m m' : Memory} {start len : Nat} (hm : Memory.wf m = true)
    (h : cobsEncodeAt m start len = .ok m') : Memory.wf m' = true := by
  obtain ⟨xs, -, rfl⟩ := cobsEncodeAt_eq_ok.1 h
  exact wf_storeBytes _ _ hm

theorem wf_cobsDecodeAt {m : Memory} {start len : Nat} {out : Bool × Memory} (hm : Memory.wf m = true)
    (h : cobsDecodeAt m start len = .ok out) : Memory.wf out.2 = true := by
  obtain ⟨r, -, ⟨d, -, rfl⟩ | ⟨-, rfl⟩⟩ := cobsDecodeAt_eq_ok.1 h
  · exact wf_eraseBytes _ _ (wf_storeBytes _ _ hm)
  · exact wf_eraseBytes _ _ hm

end Sys2Proof.Machine
end

