-- ==== Sys2Proof/Laws/PerInstr.lean ====
section
/-! SUPPORT. Facts about every command as syntax, one lemma per constructor. Family EncodedFields: the word of a well-formed
command carries its row's OP, RSV 0, and 0 in every field its row does not use (30_encoding.md R83 to R85). -/

namespace Sys2Proof.Laws.EncodedFields

/-- The word carries `op`, RSV 0, and 0 in the fields `l` does not use. -/
abbrev Carries (op : Nat) (l : Layout) (w : CommandWord) : Prop :=
  opOf w = op ∧ rsvOf w = 0 ∧ unusedFieldsZero l w = true

/-- The row of opcode_table.json a command belongs to. -/
def rowOf : Instr → OpcodeRow
  | .reset => ⟨"RESET", 0x01, .cmd⟩
  | .addb _ => ⟨"ADDB", 0x02, .cmd⟩
  | .complete => ⟨"COMPLETE", 0x03, .cmd⟩
  | .status => ⟨"STATUS", 0x04, .cmd⟩
  | .parse => ⟨"PARSE", 0x05, .cmd⟩
  | .packetize => ⟨"PACKETIZE", 0x06, .cmd⟩
  | .bufrd _ => ⟨"BUFRD", 0x08, .cmdStart⟩
  | .bufwr _ _ => ⟨"BUFWR", 0x09, .cmdStart⟩
  | .cobsenc _ _ => ⟨"COBSENC", 0x10, .cmdStartLen⟩
  | .cobsdec _ _ => ⟨"COBSDEC", 0x11, .cmdStartLen⟩
  | .crc32 _ _ => ⟨"CRC32", 0x18, .cmdStartLen⟩
  | .crc16 _ _ _ => ⟨"CRC16", 0x19, .cmdStartLen⟩
  | .curopen _ _ _ => ⟨"CUROPEN", 0x20, .cmdStartMode⟩
  | .curpos => ⟨"CURPOS", 0x21, .cmd⟩
  | .put8 _ => ⟨"PUT8", 0x28, .cmd⟩
  | .put16 _ => ⟨"PUT16", 0x29, .cmd⟩
  | .put32 _ => ⟨"PUT32", 0x2A, .cmd⟩
  | .put64 _ => ⟨"PUT64", 0x2B, .cmd⟩
  | .getu8 => ⟨"GETU8", 0x30, .cmd⟩
  | .getu16 => ⟨"GETU16", 0x31, .cmd⟩
  | .getu32 => ⟨"GETU32", 0x32, .cmd⟩
  | .get64 => ⟨"GET64", 0x33, .cmd⟩
  | .gets8 => ⟨"GETS8", 0x34, .cmd⟩
  | .gets16 => ⟨"GETS16", 0x35, .cmd⟩
  | .gets32 => ⟨"GETS32", 0x36, .cmd⟩

/-- A well-formed command's word carries its row's OP and zeros where its row has none of its fields, and the row is one of
the table's. -/
def Statement (i : Instr) : Prop :=
  rowOf i ∈ opcodeTable ∧ (i.wellFormed = true → Carries (rowOf i).op (rowOf i).layout (encode i).1)

theorem bitField_wordOf {op start len mode lo width : Nat}
    (h : op + start * 2 ^ 8 + len * 2 ^ 17 + mode * 2 ^ 26 < 2 ^ 32) :
    bitField (wordOf op start len mode).toNat lo width
      = (op + start * 2 ^ 8 + len * 2 ^ 17 + mode * 2 ^ 26) / 2 ^ lo % 2 ^ width := by
  rw [bitField, wordOf, BitVec.toNat_ofNat, Nat.mod_eq_of_lt h]

theorem carries_start {op s : Nat} (ho : op < 256) (hs : s < 512) : Carries op .cmdStart (wordOf op s 0 0) := by
  simp only [Carries, opOf, rsvOf, unusedFieldsZero, lenOf, modeOf, Bool.and_eq_true, beq_iff_eq]
  rw [bitField_wordOf (by omega), bitField_wordOf (by omega), bitField_wordOf (by omega), bitField_wordOf (by omega)]
  omega

theorem carries_start_len {op s l : Nat} (ho : op < 256) (hs : s < 512) (hl : l < 512) :
    Carries op .cmdStartLen (wordOf op s l 0) := by
  simp only [Carries, opOf, rsvOf, unusedFieldsZero, modeOf, beq_iff_eq]
  rw [bitField_wordOf (by omega), bitField_wordOf (by omega), bitField_wordOf (by omega)]
  omega

theorem carries_start_mode {op s m : Nat} (ho : op < 256) (hs : s < 512) (hm : m < 4) :
    Carries op .cmdStartMode (wordOf op s 0 m) := by
  simp only [Carries, opOf, rsvOf, unusedFieldsZero, lenOf, beq_iff_eq]
  rw [bitField_wordOf (by omega), bitField_wordOf (by omega), bitField_wordOf (by omega)]
  omega

theorem modeBits_lt (r w : Bool) : modeBits r w < 4 := by cases r <;> cases w <;> decide

theorem fits {n : Nat} (h : decide (FitsField n) = true) : n < 512 := of_decide_eq_true h

theorem reset : Statement .reset := ⟨by decide, fun _ => by decide⟩

theorem addb (b : Byte) : Statement (.addb b) :=
  ⟨by show OpcodeRow.mk "ADDB" 0x02 .cmd ∈ opcodeTable; decide, fun _ => by show Carries 0x02 .cmd (wordOf 0x02 0 0 0); decide⟩

theorem complete : Statement .complete := ⟨by decide, fun _ => by decide⟩

theorem status : Statement .status := ⟨by decide, fun _ => by decide⟩

theorem parse : Statement .parse := ⟨by decide, fun _ => by decide⟩

theorem packetize : Statement .packetize := ⟨by decide, fun _ => by decide⟩

theorem bufrd (start : Nat) : Statement (.bufrd start) :=
  ⟨by show OpcodeRow.mk "BUFRD" 0x08 .cmdStart ∈ opcodeTable; decide, fun h => carries_start (op := 0x08) (by decide) (fits h)⟩

theorem bufwr (start : Nat) (b : Byte) : Statement (.bufwr start b) :=
  ⟨by show OpcodeRow.mk "BUFWR" 0x09 .cmdStart ∈ opcodeTable; decide, fun h => carries_start (op := 0x09) (by decide) (fits h)⟩

theorem cobsenc (start len : Nat) : Statement (.cobsenc start len) :=
  ⟨by show OpcodeRow.mk "COBSENC" 0x10 .cmdStartLen ∈ opcodeTable; decide, fun h =>
    have h := Bool.and_eq_true_iff.1 h
    carries_start_len (op := 0x10) (by decide) (fits h.1) (fits h.2)⟩

theorem cobsdec (start len : Nat) : Statement (.cobsdec start len) :=
  ⟨by show OpcodeRow.mk "COBSDEC" 0x11 .cmdStartLen ∈ opcodeTable; decide, fun h =>
    have h := Bool.and_eq_true_iff.1 h
    carries_start_len (op := 0x11) (by decide) (fits h.1) (fits h.2)⟩

theorem crc32 (start len : Nat) : Statement (.crc32 start len) :=
  ⟨by show OpcodeRow.mk "CRC32" 0x18 .cmdStartLen ∈ opcodeTable; decide, fun h =>
    have h := Bool.and_eq_true_iff.1 h
    carries_start_len (op := 0x18) (by decide) (fits h.1) (fits h.2)⟩

theorem crc16 (start len : Nat) (seed : BitVec 16) : Statement (.crc16 start len seed) :=
  ⟨by show OpcodeRow.mk "CRC16" 0x19 .cmdStartLen ∈ opcodeTable; decide, fun h =>
    have h := Bool.and_eq_true_iff.1 h
    carries_start_len (op := 0x19) (by decide) (fits h.1) (fits h.2)⟩

theorem curopen (start : Nat) (r w : Bool) : Statement (.curopen start r w) :=
  ⟨by show OpcodeRow.mk "CUROPEN" 0x20 .cmdStartMode ∈ opcodeTable; decide, fun h =>
    carries_start_mode (op := 0x20) (by decide) (fits h) (modeBits_lt r w)⟩

theorem curpos : Statement .curpos := ⟨by decide, fun _ => by decide⟩

theorem put8 (v : BitVec 8) : Statement (.put8 v) :=
  ⟨by show OpcodeRow.mk "PUT8" 0x28 .cmd ∈ opcodeTable; decide,
    fun _ => by show Carries 0x28 .cmd (wordOf 0x28 0 0 0); decide⟩

theorem put16 (v : BitVec 16) : Statement (.put16 v) :=
  ⟨by show OpcodeRow.mk "PUT16" 0x29 .cmd ∈ opcodeTable; decide,
    fun _ => by show Carries 0x29 .cmd (wordOf 0x29 0 0 0); decide⟩

theorem put32 (v : BitVec 32) : Statement (.put32 v) :=
  ⟨by show OpcodeRow.mk "PUT32" 0x2A .cmd ∈ opcodeTable; decide,
    fun _ => by show Carries 0x2A .cmd (wordOf 0x2A 0 0 0); decide⟩

theorem put64 (v : BitVec 64) : Statement (.put64 v) :=
  ⟨by show OpcodeRow.mk "PUT64" 0x2B .cmd ∈ opcodeTable; decide,
    fun _ => by show Carries 0x2B .cmd (wordOf 0x2B 0 0 0); decide⟩

theorem getu8 : Statement .getu8 := ⟨by decide, fun _ => by decide⟩

theorem getu16 : Statement .getu16 := ⟨by decide, fun _ => by decide⟩

theorem getu32 : Statement .getu32 := ⟨by decide, fun _ => by decide⟩

theorem get64 : Statement .get64 := ⟨by decide, fun _ => by decide⟩

theorem gets8 : Statement .gets8 := ⟨by decide, fun _ => by decide⟩

theorem gets16 : Statement .gets16 := ⟨by decide, fun _ => by decide⟩

theorem gets32 : Statement .gets32 := ⟨by decide, fun _ => by decide⟩

end Sys2Proof.Laws.EncodedFields
end

