-- ==== Sys2Proof/Machine/Run.lean ====
section
/-! DEFINITION. A run of a host program: how it ends, and what is observed of it (70_reset_and_hazards.md R284). The program is
the host's list of a start state; R284 speaks of commands only, and a power-on reset among them is one more event of the list,
which undoes no bad end (log 15). -/

namespace Sys2Proof.Machine

/-- `s` with the program `cs` to run from it. -/
def State.program (s : State) (cs : List (CommandWord × Data)) : State :=
  { s with hostEvents := cs.map fun c => .command c.1 c.2 }

/-- The next command faults: it records a fault, or reads a byte that holds no value (60_exceptions.md R250 (b) and (c)). A
command turned away because `FAULT` was 1 before it does not fault (R254). -/
def nextFaults (s : State) : Bool :=
  match step s with
  | .next t => !s.fault && t.fault
  | .fault _ => true
  | .refused _ => false

/-- The next command is executed, and not turned away: `FAULT = 0`, or it is STATUS (60_exceptions.md R254). -/
def nextExecutes (s : State) : Bool :=
  match s.hostEvents with
  | .command w _ :: _ => !s.fault || w == statusCommandWord
  | _ => true

/-- The position, once presented, of the first of the next `n` events that faults. -/
def faultPosition : Nat → State → Option Nat
  | 0, _ => none
  | n + 1, s =>
    if nextFaults s then some (s.position + 1)
    else
      match step s with
      | .next t => faultPosition n t
      | .fault _ => none
      | .refused _ => none

/-- Each of the next `n` events is executed to its end. -/
def allExecute : Nat → State → Bool
  | 0, _ => true
  | n + 1, s =>
    nextExecutes s &&
      match step s with
      | .next t => allExecute n t
      | .fault _ => false
      | .refused _ => false

/-- The first command of the run that faults, counted from 1; `none` where no command does. -/
def firstFault (s : State) : Option Nat := (faultPosition s.hostEvents.length s).map (· - s.position)

/-- The run from `s` ends well in `t`: "every command of the list has been executed and `FAULT = 0` and no `UnwrittenRead`
occurred" (70_reset_and_hazards.md R284), and no command faulted. -/
def EndsWell (s t : State) : Prop :=
  core.run s.hostEvents.length s = .next t ∧ allExecute s.hostEvents.length s = true ∧ firstFault s = none ∧ t.fault = false

/-- The run from `s` ends badly at its command `k`, counted from 1: the first that faults (70_reset_and_hazards.md R284). -/
def EndsBadlyAt (s : State) (k : Nat) : Prop := firstFault s = some k

/-- The observation of the run from `s`: "the list of responses and the final state" (70_reset_and_hazards.md R284). A run that
an `UnwrittenRead` stops has none. -/
def Observes (s : State) (responses : List Response) (t : State) : Prop :=
  core.run s.hostEvents.length s = .next t ∧ t.responses = s.responses ++ responses

end Sys2Proof.Machine
end

