-- ==== Sys2Proof/Laws/Run.lean ====
section
/-! SUPPORT. The two ends of a run exclude each other, and what an end says of the first step. -/

namespace Sys2Proof.Machine

/-- No run ends well and badly. -/
theorem EndsWell_not_EndsBadlyAt {s t : State} {k : Nat} (h : EndsWell s t) : ¬ EndsBadlyAt s k := by
  simp [EndsBadlyAt, h.2.2.1]

/-- A run that ends badly has one place where it does. -/
theorem EndsBadlyAt_unique {s : State} {j k : Nat} (hj : EndsBadlyAt s j) (hk : EndsBadlyAt s k) : j = k :=
  Option.some.inj (hj.symm.trans hk)

/-- A run whose first command faults ends badly at command 1, whatever follows it. -/
theorem EndsBadlyAt_one {s : State} (hs : s.hostEvents ≠ []) (h : nextFaults s = true) : EndsBadlyAt s 1 := by
  cases he : s.hostEvents with
  | nil => exact absurd he hs
  | cons e rest => simp [EndsBadlyAt, firstFault, he, faultPosition, h]

/-- A command that faults takes a fault of the block from `FAULT = 0`, or stops the model. -/
theorem nextFaults_iff {s : State} :
    nextFaults s = true ↔ (∃ t, step s = .next t ∧ s.fault = false ∧ t.fault = true) ∨ ∃ f, step s = .fault f := by
  unfold nextFaults
  cases step s <;> simp

end Sys2Proof.Machine
end

