-- ==== Sys2Proof/Tests/Slice0.lean ====
section
/-! SUPPORT. The model's own tests. Words are written out from 30_encoding.md R81 and R83 (RSV, MODE, LEN, START, OP), and
expected results are the spec's vectors (95_test_vectors.md) or hand calculation from its rules. Then one witness for the
hypotheses of each statement. -/

namespace Sys2Proof.Tests

open Sys2Proof Sys2Proof.Machine

/-! ### Helpers -/

/-- The state after reset with the bytes `bs` in the buffer from index `a`. -/
def held (a : Nat) (bs : List Byte) : State := State.reset.setBuf (storeBytes [] a bs)

/-- The next state, where there is one. -/
def next? : Result → Option State
  | .next t => some t
  | .fault _ => none
  | .refused _ => none

/-- The fault a command stops with, where it does. -/
def stop? : Result → Option Fault
  | .next _ => none
  | .fault f => some f
  | .refused _ => none

/-- The last response of the next state. -/
def answer? (r : Result) : Option Response := (next? r).bind fun t => t.responses.getLast?

/-- The byte at index `i` of the next state. -/
def after (r : Result) (i : Nat) : Option Byte := (next? r).bind fun t => byteAt t.buf i

/-- The frame of vector W1: battery voltage 3700 mV. -/
def w1Frame : List Byte := [0x09, 0x02, 0x02, 0x74, 0x0E, 0x0C, 0x52, 0x22, 0x24, 0x00]

/-- A block that has received the bytes `bs`, the last of them the delimiter. -/
def received (bs : List Byte) : State := (held 0 bs).setFramer (BitVec.ofNat 9 bs.length) true false

/-! ### WellFormed refuses a START or LEN that does not fit its field -/

theorem test_ill_formed_bufrd : (Instr.bufrd 512).wellFormed = false := by decide
theorem test_ill_formed_bufwr : (Instr.bufwr 512 0).wellFormed = false := by decide
theorem test_ill_formed_curopen : (Instr.curopen 512 true true).wellFormed = false := by decide
theorem test_ill_formed_cobsenc_start : (Instr.cobsenc 512 2).wellFormed = false := by decide
theorem test_ill_formed_cobsenc_len : (Instr.cobsenc 0 512).wellFormed = false := by decide
theorem test_ill_formed_cobsdec_start : (Instr.cobsdec 512 2).wellFormed = false := by decide
theorem test_ill_formed_cobsdec_len : (Instr.cobsdec 0 512).wellFormed = false := by decide
theorem test_ill_formed_crc32_start : (Instr.crc32 512 1).wellFormed = false := by decide
theorem test_ill_formed_crc32_len : (Instr.crc32 0 512).wellFormed = false := by decide
theorem test_ill_formed_crc16_start : (Instr.crc16 512 1 0).wellFormed = false := by decide
theorem test_ill_formed_crc16_len : (Instr.crc16 0 512 0).wellFormed = false := by decide
theorem test_well_formed_largest : (Instr.cobsdec 511 511).wellFormed = true := by decide

/-! ### Decoding: one word per command, bit by bit -/

theorem test_decode_reset : decode 0b00000000000000000000000000000001 0 = .ok .reset := by decide
theorem test_decode_addb : decode 0b00000000000000000000000000000010 0x109 = .ok (.addb 0x09) := by decide
theorem test_decode_complete : decode 0b00000000000000000000000000000011 0 = .ok .complete := by decide
theorem test_decode_status : decode 0b00000000000000000000000000000100 0 = .ok .status := by decide
theorem test_decode_parse : decode 0b00000000000000000000000000000101 0 = .ok .parse := by decide
theorem test_decode_packetize : decode 0b00000000000000000000000000000110 0 = .ok .packetize := by decide
/-- START = 257: bits 16 and 8. -/
theorem test_decode_bufrd : decode 0b00000000000000010000000100001000 0 = .ok (.bufrd 257) := by decide
theorem test_decode_bufwr : decode 0b00000000000000000000000100001001 0x1FF = .ok (.bufwr 1 0xFF) := by decide
/-- LEN = 5, START = 1. -/
theorem test_decode_cobsenc : decode 0b00000000000010100000000100010000 0 = .ok (.cobsenc 1 5) := by decide
/-- LEN = 256: bit 25. -/
theorem test_decode_cobsdec : decode 0b00000010000000000000000000010001 0 = .ok (.cobsdec 0 256) := by decide
theorem test_decode_crc32 : decode 0b00000000000010000000000100011000 0 = .ok (.crc32 1 4) := by decide
theorem test_decode_crc16 : decode 0b00000000000010100000010000011001 0x18B13 = .ok (.crc16 4 5 0x8B13) := by decide
/-- MODE = 1 is a source only: bit 26. -/
theorem test_decode_curopen_r : decode 0b00000100000000000000101000100000 0 = .ok (.curopen 10 true false) := by decide
/-- MODE = 2 is a target only: bit 27. -/
theorem test_decode_curopen_w : decode 0b00001000000000000000101000100000 0 = .ok (.curopen 10 false true) := by decide
theorem test_decode_curpos : decode 0b00000000000000000000000000100001 0 = .ok .curpos := by decide
theorem test_decode_put8 : decode 0b00000000000000000000000000101000 0x17F = .ok (.put8 0x7F) := by decide
theorem test_decode_put16 : decode 0b00000000000000000000000000101001 0x10E74 = .ok (.put16 3700) := by decide
theorem test_decode_put32 : decode 0b00000000000000000000000000101010 0x111223344 = .ok (.put32 0x11223344) := by decide
theorem test_decode_put64 :
    decode 0b00000000000000000000000000101011 0x0102030405060708 = .ok (.put64 0x0102030405060708) := by decide
theorem test_decode_getu8 : decode 0b00000000000000000000000000110000 0 = .ok .getu8 := by decide
theorem test_decode_getu16 : decode 0b00000000000000000000000000110001 0 = .ok .getu16 := by decide
theorem test_decode_getu32 : decode 0b00000000000000000000000000110010 0 = .ok .getu32 := by decide
theorem test_decode_get64 : decode 0b00000000000000000000000000110011 0 = .ok .get64 := by decide
theorem test_decode_gets8 : decode 0b00000000000000000000000000110100 0 = .ok .gets8 := by decide
theorem test_decode_gets16 : decode 0b00000000000000000000000000110101 0 = .ok .gets16 := by decide
theorem test_decode_gets32 : decode 0b00000000000000000000000000110110 0 = .ok .gets32 := by decide

/-- V-FLT1: the all-zero word is illegal. -/
theorem test_decode_zero_word : decode 0x00000000 0 = .error .unassignedOp := by decide
/-- V-FLT4: RESET with an RSV bit. -/
theorem test_decode_rsv : decode 0x10000001 0 = .error .reservedBits := by decide
/-- V-FLT5: RESET with START = 1. -/
theorem test_decode_unused_start : decode 0x00000101 0 = .error .unusedField := by decide
/-- V-FLT9: CUROPEN with LEN = 1. -/
theorem test_decode_unused_len : decode 0x00020020 0 = .error .unusedField := by decide
/-- V-FLT8: CRC32 with MODE = 3. -/
theorem test_decode_unused_mode : decode 0x0C000018 0 = .error .unusedField := by decide
/-- P1: `CUROPEN 1, rw` is the word 0x0C000120. -/
theorem test_encode_curopen : encode (.curopen 1 true true) = (0x0C000120, 0) := by decide

/-! ### The framer -/

/-- V-FR16: RESET clears the framer and leaves the buffer. -/
theorem test_reset : (next? (exec .reset ((held 0 [0x55]).setFramer 10 true true))).map
    (fun t => (t.size, t.complete, t.consumed, byteAt t.buf 0)) = some (0, false, false, some 0x55) := by decide

/-- V-FR1: the delimiter as first byte completes at once. -/
theorem test_addb_delimiter : (next? (exec (.addb 0x00) State.reset)).map
    (fun t => (t.size, t.complete, byteAt t.buf 0)) = some (1, true, some 0x00) := by decide

/-- V-FR6: the byte after the 256th is refused. -/
theorem test_addb_full : answer? (exec (.addb 0x00) (State.reset.setFramer 256 false false)) = some (some 0) := by decide

/-- V-FR17. -/
theorem test_complete : answer? (exec .complete (received [0x00])) = some (some 1) := by decide

/-- The end of P1: STATUS is 0xC0801020A. -/
theorem test_status : answer? (exec .status (((held 0 w1Frame).setFramer 10 true false).openCursor 1 true true
    |>.advanceCursor 4)) = some (some 0xC0801020A) := by decide

/-- V-CUR16: STATUS of a faulted block is 0xC00FF5000. -/
theorem test_status_fault : answer? (exec .status ((State.reset.openCursor 255 true true).setFault 2))
    = some (some 0xC00FF5000) := by decide

/-- W1: the battery-voltage frame parses to id 2. -/
theorem test_parse_w1 : answer? (exec .parse (received w1Frame)) = some (some 2) := by decide +kernel

/-- V-FR9: a right checksum and a wrong header size give 0 and leave the decoded region. -/
theorem test_parse_wrong_size :
    (next? (exec .parse (received [0x08, 0x03, 0x05, 0xAA, 0xF8, 0xD9, 0x73, 0xB6, 0x00]))).map
      (fun t => (t.responses, t.consumed, byteAt t.buf 0, byteAt t.buf 1)) =
    some ([some 0], true, none, some 0x03) := by decide +kernel

/-- V-FR3: a header with size 0 makes an 8-byte frame; its last CRC byte is DF. -/
theorem test_packetize : (next? (exec .packetize (held 1 [0x00, 0x07]))).map
    (fun t => (t.responses, t.size, t.complete, byteAt t.buf 0, byteAt t.buf 6)) =
    some ([some 8], 8, true, some 0x01, some 0xDF) := by decide +kernel

/-- V-FR11: a header size of 249 does not fit. -/
theorem test_packetize_too_large : (next? (exec .packetize (held 1 [249]))).map
    (fun t => (t.fault, t.faultCode, t.responses)) = some (true, 2, [none]) := by decide

/-! ### The buffer port -/

/-- V-BUF2. -/
theorem test_bufrd : answer? (exec (.bufrd 1) (held 1 [0x02])) = some (some 2) := by decide
/-- V-BUF8: a byte that holds no value. -/
theorem test_bufrd_unwritten : stop? (exec (.bufrd 0) State.reset) = some .unwrittenRead := by decide
/-- V-BUF1. -/
theorem test_bufwr : after (exec (.bufwr 1 0x02) State.reset) 1 = some 0x02 := by decide
/-- V-BUF7: index 256 does not exist. -/
theorem test_bufwr_past : (next? (exec (.bufwr 256 0x12) State.reset)).map (fun t => (t.fault, t.faultCode, t.buf))
    = some (true, 2, []) := by decide

/-! ### The byte-stuffing codec -/

/-- V-COBS6. -/
theorem test_cobs_encode : cobsEncode [0x11, 0x22, 0x00, 0x33, 0x00, 0x00]
    = [0x03, 0x11, 0x22, 0x02, 0x33, 0x01, 0x01, 0x00] := by decide
/-- V-COBS3, with the reserved slots holding AA and BB. -/
theorem test_cobsenc : (next? (exec (.cobsenc 0 5) (held 0 [0xAA, 0x11, 0x00, 0x22, 0xBB]))).map (·.buf)
    = some [(0, 0x02), (1, 0x11), (2, 0x02), (3, 0x22), (4, 0x00)] := by decide
/-- V-COBS27: the range check comes before the length check. -/
theorem test_cobsenc_priority : (next? (exec (.cobsenc 256 1) State.reset)).map (·.faultCode) = some 2 := by decide
/-- V-COBS14. -/
theorem test_cobs_decode : cobsDecode [0x03, 0x11, 0x22, 0x02, 0x33, 0x01, 0x01, 0x00]
    = some [0x03, 0x11, 0x22, 0x00, 0x33, 0x00, 0x00, 0x00] := by decide
/-- V-COBS12: response START + 1, and no value in the leading slot. -/
theorem test_cobsdec : (next? (exec (.cobsdec 0 5) (held 0 [0x02, 0x11, 0x02, 0x22, 0x00]))).map
    (fun t => (t.responses, t.buf)) = some ([some 1], [(1, 0x11), (2, 0x00), (3, 0x22), (4, 0x00)]) := by decide
/-- V-COBS21: a zero skipped by the chain is a failure, and the range is emptied. -/
theorem test_cobsdec_strict : (next? (exec (.cobsdec 0 3) (held 0 [0x02, 0x00, 0x00]))).map
    (fun t => (t.responses, t.buf)) = some ([some 0], []) := by decide

/-! ### The checksum unit -/

/-- V-CRC7. -/
theorem test_crc32 : answer? (exec (.crc32 1 4) (held 1 [0x02, 0x02, 0x74, 0x0E])) = some (some 0x2422520C) := by
  decide +kernel
/-- V-CRC6: the check value of 41_checksum.md R141. -/
theorem test_crc32_check : crc32 [0x31, 0x32, 0x33, 0x34, 0x35, 0x36, 0x37, 0x38, 0x39] = 0xCBF43926 := by
  decide +kernel
/-- V-CRC17. -/
theorem test_crc16 : answer? (exec (.crc16 0 9 0xFFFF) (held 0 [0x31, 0x32, 0x33, 0x34, 0x35, 0x36, 0x37, 0x38, 0x39]))
    = some (some 0x6F91) := by decide +kernel
/-- V-CRC11: the empty range responds the seed. -/
theorem test_crc16_empty : answer? (exec (.crc16 0 0 0xFFFF) State.reset) = some (some 0xFFFF) := by decide

/-! ### The cursor -/

/-- V-CUR1. -/
theorem test_curopen : (next? (exec (.curopen 10 false true) State.reset)).map
    (fun t => (t.curBase, t.curPos, t.curR, t.curW)) = some (10, 0, false, true) := by decide
/-- V-CUR20: START > CAP. -/
theorem test_curopen_past : (next? (exec (.curopen 257 true true) State.reset)).map (fun t => (t.faultCode, t.curBase))
    = some (2, 0) := by decide
/-- P1: four bytes moved. -/
theorem test_curpos : answer? (exec .curpos ((State.reset.openCursor 1 true true).advanceCursor 4)) = some (some 4) := by
  decide
/-- V-CUR2. -/
theorem test_put8 : (next? (exec (.put8 0x7F) (State.reset.openCursor 10 false true))).map (fun t => (t.buf, t.curPos))
    = some ([(10, 0x7F)], 1) := by decide
/-- W5: 3700 at index 3. -/
theorem test_put16 : (next? (exec (.put16 3700) (State.reset.openCursor 3 false true))).map (·.buf)
    = some [(3, 0x74), (4, 0x0E)] := by decide
/-- V-CUR16: `a = CAP - 1` faults and writes nothing. -/
theorem test_put16_past : (next? (exec (.put16 1) (State.reset.openCursor 255 true true))).map
    (fun t => (t.buf, t.faultCode)) = some ([], 2) := by decide
/-- The example of 40_primitive_codec.md R112. -/
theorem test_put32 : (next? (exec (.put32 0x11223344) (State.reset.openCursor 10 false true))).map (·.buf)
    = some [(10, 0x44), (11, 0x33), (12, 0x22), (13, 0x11)] := by decide
/-- V-CUR18: the last legal start of a PUT64. -/
theorem test_put64 : (next? (exec (.put64 1) (State.reset.openCursor 248 false true))).map
    (fun t => (byteAt t.buf 248, byteAt t.buf 255, t.curPos)) = some (some 1, some 0, 8) := by decide
/-- V-CUR22. -/
theorem test_getu8_unwritten : stop? (exec .getu8 (State.reset.openCursor 0 true false)) = some .unwrittenRead := by decide
/-- V-CUR15: no source. -/
theorem test_getu8_no_source : answer? (exec .getu8 (State.reset.openCursor 0 false true)) = some none := by decide
/-- The example of 40_primitive_codec.md R122. -/
theorem test_getu16 : answer? (exec .getu16 ((held 3 [0x74, 0x0E]).openCursor 3 true false)) = some (some 3700) := by
  decide
/-- V-CUR12: zero extension. -/
theorem test_getu32 : answer? (exec .getu32 ((held 13 [0x00, 0x00, 0x00, 0x80]).openCursor 13 true false))
    = some (some 0x80000000) := by decide
/-- The example of 40_primitive_codec.md R124. -/
theorem test_get64 : answer? (exec .get64 ((held 0 [8, 7, 6, 5, 4, 3, 2, 1]).openCursor 0 true false))
    = some (some 0x0102030405060708) := by decide
/-- The example of 40_primitive_codec.md R125. -/
theorem test_gets8 : answer? (exec .gets8 ((held 0 [0xFE]).openCursor 0 true false)) = some (some 0xFFFFFFFFFFFFFFFE) := by
  decide
/-- V-CUR9: -1000. -/
theorem test_gets16 : answer? (exec .gets16 ((held 0 [0x18, 0xFC]).openCursor 0 true false))
    = some (some 0xFFFFFFFFFFFFFC18) := by decide
/-- V-CUR10. -/
theorem test_gets32 : answer? (exec .gets32 ((held 0 [0x00, 0x00, 0x00, 0x80]).openCursor 0 true false))
    = some (some 0xFFFFFFFF80000000) := by decide

/-! ### Steps -/

/-- V-FLT1: an illegal word is a fault the block records. -/
theorem test_step_illegal : (next? (step (State.reset.withFetchWord 32 0))).map (fun t => (t.fault, t.faultCode, t.responses))
    = some (true, 1, [none]) := by decide
/-- V-FLT11: STATUS runs while faulted. -/
theorem test_step_faulted_status : answer? (step ((State.reset.setFault 1).withFetchWord 32 4)) = some (some 0x3000) := by
  decide
/-- V-FLT12: only the exact STATUS word does. -/
theorem test_step_faulted_other : answer? (step ((State.reset.setFault 1).withFetchWord 32 0x104)) = some none := by decide
/-- The table's word for BUFWR, read through the table's numbering. -/
theorem test_decode_table_word : decodeTableWord 32 0x00000109 = some (.bufwr 1 0) := by decide

/-! ### The host's side -/

/-- `PUTHDR 2, 2` of P1. -/
theorem test_assemble_puthdr : assemble (.puthdr 2 2) = some [.command 0x28 2, .command 0x28 2] := by decide
/-- The assembler refuses `PUT8 256` (30_encoding.md R90). -/
theorem test_assemble_refuses : assemble (.put .w8 256) = none := by decide
/-- 43_header_layout.md R189: a size that is not the message's width is not accepted. -/
theorem test_host_check : hostAccepts [batteryVoltage] 2 2 = true ∧ hostAccepts [batteryVoltage] 2 3 = false := by decide

/-- The example of 43_header_layout.md R187: 3700 mV. -/
theorem test_battery_body : messageBody (.batteryVoltage 3700) = [0x02, 0x02, 0x74, 0x0E] := by decide
theorem test_battery_read : readBatteryVoltage [0x02, 0x02, 0x74, 0x0E] = some (.batteryVoltage 3700) ∧
    readBatteryVoltage [0x03, 0x02, 0x74, 0x0E, 0x00] = none := by decide
/-- The payload of V-FR14, its stuffed zeros written as zeros. -/
theorem test_actuator_payload : messagePayload (.actuatorCommand #v[1500, 1500, 1000, 2000, 0, 256, 65535, 1])
    = [0xDC, 0x05, 0xDC, 0x05, 0xE8, 0x03, 0xD0, 0x07, 0x00, 0x00, 0x00, 0x01, 0xFF, 0xFF, 0x01, 0x00] := by decide
/-- The first four commands of P1 and its PACKETIZE. -/
theorem test_send_battery : sendMessage (.batteryVoltage 3700)
    = [.command 0x0C000120 0, .command 0x28 2, .command 0x28 2, .command 0x29 0xE74, .command 0x06 0] := by decide
/-- The reading commands of P2. -/
theorem test_receive_battery : receiveCommands 1
    = [.command 0x04000120 0, .command 0x30 0, .command 0x30 0, .command 0x31 0] := by decide

/-! ### The end of a run -/

/-- P4: the run ends badly at its third command. -/
theorem test_run_P4 : firstFault (State.reset.program
    [(0x02, 0x00), (0x05, 0), (0x05, 0), (0x04, 0), (0x01, 0), (0x02, 0x05), (0x04, 0)]) = some 3 := by decide
/-- 70_reset_and_hazards.md R284: a run ends badly at its first fault; a power-on reset after it changes nothing. -/
theorem test_run_fault_then_reset : firstFault
    { State.reset with hostEvents := [.command 0x12C08 0, .command 0x01 0, .powerOnReset] } = some 1 := by decide
/-- A RESET turned away by a faulted start state is not executed. -/
theorem test_run_skipped : allExecute 2
    { State.reset.setFault 1 with hostEvents := [.command 0x01 0, .powerOnReset] } = false := by decide
/-- BUFWR of one byte: every command executed, none faulted. -/
theorem test_run_well : firstFault (State.reset.program [(0x109, 0x11)]) = none ∧
    allExecute 1 (State.reset.program [(0x109, 0x11)]) = true := by decide

/-! ### Witnesses: a state and operands that meet the hypotheses of each statement, clause by clause -/

/-- EncodedCommandDecodesToItself. -/
theorem witness_well_formed : (Instr.crc16 511 511 0xFFFF).wellFormed = true := by decide

/-- LegalWordIsItsCommandsEncoding, IgnoredDataBitsChangeNothing (a legal word whose ignored DATA bits differ). -/
theorem witness_legal_word : decode 0x00000109 0x1FF = .ok (.bufwr 1 0xFF) ∧
    (0x2FF : Data).toNat % 2 ^ dataBitsUsed (.bufwr 1 0xFF) = (0x1FF : Data).toNat % 2 ^ dataBitsUsed (.bufwr 1 0xFF) := by
  decide

/-- NoTwoRowsMatchTheSameWord. -/
theorem witness_row_matches : (⟨"BUFRD", 0x08, .cmdStart⟩ : OpcodeRow) ∈ opcodeTable ∧
    OpcodeRow.matches ⟨"BUFRD", 0x08, .cmdStart⟩ 0x0001FF08 = true := by decide

/-- IllegalWordRaisesIllegalCommand: each edge of the unassigned ranges, an RSV bit, an unused field. -/
theorem witness_illegal_word : State.reset.fault = false ∧
    (State.reset.present 0x0A 0).hostEvents = .command 0x0A 0 :: State.reset.hostEvents ∧
    opOf 0x00 = 0x00 ∧ opOf 0x07 = 0x07 ∧ opOf 0x0A = 0x0A ∧ opOf 0x0F = 0x0F ∧ opOf 0x12 = 0x12 ∧ opOf 0x17 = 0x17 ∧
    opOf 0x1A = 0x1A ∧ opOf 0x1F = 0x1F ∧ opOf 0x22 = 0x22 ∧ opOf 0x27 = 0x27 ∧ opOf 0x2C = 0x2C ∧ opOf 0x2F = 0x2F ∧
    opOf 0x37 = 0x37 ∧ opOf 0xFF = 0xFF ∧ rsvOf 0x10000001 ≠ 0 ∧
    (⟨"RESET", 0x01, .cmd⟩ : OpcodeRow) ∈ opcodeTable ∧ opOf 0x101 = 0x01 ∧ unusedFieldsZero .cmd 0x101 = false := by
  decide

/-- StepRunsTheDecodedCommand. -/
theorem witness_step_decoded : (State.reset.present 0x28 5).fault = false ∧
    (State.reset.present 0x28 5).hostEvents = [.command 0x28 5] ∧ decode 0x28 5 = .ok (.put8 5) := by decide

/-- FaultedBlockExecutesOnlyStatus: the STATUS word, another word, and a step that keeps the fault. -/
theorem witness_faulted : ((State.reset.setFault 4).present 4 0).fault = true ∧
    ((State.reset.setFault 4).present 4 0).hostEvents = [.command 4 0] ∧ (0x104 : CommandWord) ≠ 0x00000004 ∧
    (next? (step ((State.reset.setFault 4).present 0x104 0))).isSome = true := by decide

/-- IdleBlockKeepsItsState. -/
theorem witness_idle : State.reset.hostEvents = [] := by decide

/-- PowerOnResetGivesTheTablesValues: a faulted block about to be reset. -/
theorem witness_power_on : ({ State.reset.setFault 3 with hostEvents := [.powerOnReset] } : State).hostEvents
    = [.powerOnReset] := by decide

/-- StepKeepsTheInvariant, InvariantStatesStayInsideTheBuffer: a state at the edges of the invariant, and its step. -/
theorem witness_invariant : Inv (((held 255 [0x00]).setFramer 256 true true).openCursor 256 true true) :=
  ⟨by decide, by decide, by decide, by decide, by decide, by decide, by decide⟩

theorem witness_invariant_step :
    (next? (step ((((held 255 [0x00]).setFramer 256 true true).openCursor 256 true true).present 0x30 0))).isSome = true := by
  decide

/-- FaultEntryIsPrecise, and the fault clause of FlagTable. -/
theorem witness_fault_entry : State.reset.fault = false ∧
    (next? (exec (.bufrd 256) State.reset)).map (·.fault) = some true := by decide

/-- FlagTable: one command of each row that takes no fault. -/
theorem witness_flag_table :
    (next? (exec (.addb 0x00) (State.reset.setFramer 255 false false))).map (·.fault) = some false ∧
    (next? (exec .reset State.reset)).map (·.fault) = some false ∧
    (next? (exec .parse (State.reset.setFramer 1 true false))).map (·.fault) = some false ∧
    (next? (exec (.addb 0x01) State.reset)).map (·.fault) = some false := by decide

theorem witness_flag_table_packetize : (next? (exec .packetize (held 1 [0x00, 0x07]))).map (·.fault) = some false := by
  decide +kernel

/-- RangePastTheBufferFaults: the first range past the buffer, for each clause; the empty range too. -/
theorem witness_range_past : Config.cap < 256 + 1 ∧ Config.cap < 257 + 0 ∧ Config.cap < 255 + 2 ∧ Config.cap < 257 ∧
    (State.reset.openCursor 249 true true).curW = true ∧ (State.reset.openCursor 249 true true).curR = true ∧
    Config.cap < cursorAddr (State.reset.openCursor 256 true true) + 1 ∧
    Config.cap < cursorAddr (State.reset.openCursor 255 true true) + 2 ∧
    Config.cap < cursorAddr (State.reset.openCursor 253 true true) + 4 ∧
    Config.cap < cursorAddr (State.reset.openCursor 249 true true) + 8 ∧
    byteAt (held 1 [249]).buf 1 = some 249 ∧ Config.cap < (249 : Byte).toNat + 8 := by decide

/-- ReadingAnUnwrittenByteStops: a byte without a value in each range, at the last place it fits. -/
theorem witness_unwritten : byteAt State.reset.buf 255 = none ∧ 255 < Config.cap ∧
    HasUnwritten (held 254 [0x01]).buf 254 2 ∧ 254 + 2 ≤ Config.cap ∧ HasUnwritten State.reset.buf (253 + 1) (3 - 2) ∧
    HasUnwritten State.reset.buf (cursorAddr (State.reset.openCursor 255 true false)) 1 ∧
    cursorAddr (State.reset.openCursor 255 true false) + 1 ≤ Config.cap ∧
    cursorAddr (State.reset.openCursor 254 true false) + 2 ≤ Config.cap ∧
    cursorAddr (State.reset.openCursor 252 true false) + 4 ≤ Config.cap ∧
    cursorAddr (State.reset.openCursor 248 true false) + 8 ≤ Config.cap :=
  ⟨by decide, by decide, ⟨1, by decide, by decide⟩, by decide, ⟨0, by decide, by decide⟩, ⟨0, by decide, by decide⟩,
    by decide, by decide, by decide, by decide⟩

theorem witness_unwritten_cursor : HasUnwritten State.reset.buf 254 2 ∧ HasUnwritten State.reset.buf 252 4 ∧
    HasUnwritten State.reset.buf 248 8 :=
  ⟨⟨0, by decide, by decide⟩, ⟨0, by decide, by decide⟩, ⟨0, by decide, by decide⟩⟩

theorem witness_unwritten_frame : byteAt State.reset.buf 1 = none ∧ byteAt (held 1 [248]).buf 1 = some 248 ∧
    (248 : Byte).toNat + 8 ≤ Config.cap ∧ HasUnwritten (held 1 [248]).buf 1 ((248 : Byte).toNat + 2) ∧
    (State.reset.setFramer 256 true false).complete = true ∧ (State.reset.setFramer 256 true false).consumed = false ∧
    8 ≤ (State.reset.setFramer 256 true false).size.toNat ∧
    (State.reset.setFramer 256 true false).size.toNat ≤ Config.cap ∧
    HasUnwritten (State.reset.setFramer 256 true false).buf 0 (State.reset.setFramer 256 true false).size.toNat :=
  ⟨by decide, by decide, by decide, ⟨249, by decide, by decide⟩, by decide, by decide, by decide, by decide,
    ⟨255, by decide, by decide⟩⟩

/-- AddbAcceptsAByte: the last place. -/
theorem witness_addb_accepts : (State.reset.setFramer 255 false false).complete = false ∧
    (State.reset.setFramer 255 false false).size.toNat < Config.cap := by decide

/-- RefusedAddbChangesNothing: complete, and full. -/
theorem witness_addb_refused : (State.reset.setFramer 1 true false).complete = true ∧
    (State.reset.setFramer 256 false false).size.toNat = Config.cap := by decide

/-- FramerStatesFollowTheDiagram: each clause, the byte that fills the buffer included. -/
theorem witness_framer_states : State.reset.consumed = false ∧ State.reset.framerState = .empty ∧
    (State.reset.setFramer 255 false false).framerState = .receiving ∧
    (next? (exec (.addb 0x01) (State.reset.setFramer 255 false false))).map (·.framerState) = some .receivingFull ∧
    (State.reset.setFramer 1 true false).framerState = .completeUnparsed ∧
    (next? (exec .parse (State.reset.setFramer 1 true false))).map (·.framerState) = some .completeParsed ∧
    (next? (exec .reset State.reset)).map (·.framerState) = some .empty := by decide

/-- ParseOfAnIncompleteFrameRespondsZero, SecondParseFaults, ShortFrameParsesToZero. -/
theorem witness_parse_gates : State.reset.complete = false ∧ (State.reset.setFramer 1 true true).complete = true ∧
    (State.reset.setFramer 1 true true).consumed = true ∧ (State.reset.setFramer 7 true false).complete = true ∧
    (State.reset.setFramer 7 true false).consumed = false ∧ (State.reset.setFramer 7 true false).size.toNat < 8 := by decide

/-- ParseChecksACompleteFrame: a frame that decodes. -/
theorem witness_parse_frame : (received w1Frame).complete = true ∧ (received w1Frame).consumed = false ∧
    w1Frame.length = (received w1Frame).size.toNat ∧ 8 ≤ w1Frame.length ∧ w1Frame.length ≤ Config.cap ∧
    Holds (received w1Frame).buf 0 w1Frame ∧ (cobsDecode w1Frame).isSome = true := by decide

/-- ParseChecksACompleteFrame: a frame of 8 bytes, the shortest, that does not decode. -/
theorem witness_parse_malformed :
    let frame : List Byte := [0x0A, 0x02, 0x02, 0x74, 0x0E, 0x0C, 0x52, 0x00]
    (received frame).size.toNat = frame.length ∧ Holds (received frame).buf 0 frame ∧ cobsDecode frame = none := by decide

/-- NonzeroIdMeansAValidFrame. -/
theorem witness_nonzero_id : (next? (exec .parse (received w1Frame))).map (·.responses) = some [some 2] ∧
    (2 : Data) ≠ 0 := by decide +kernel

/-- PacketizeBuildsTheFrame, PacketizeThenParseReturnsTheMessage, FedFrameParsesToTheMessageSent: W1's body, and an empty
block to feed. -/
theorem witness_packetize : byteAt (held 1 [0x02, 0x02, 0x74, 0x0E]).buf 1 = some 0x02 ∧
    byteAt (held 1 [0x02, 0x02, 0x74, 0x0E]).buf 2 = some 0x02 ∧ (0x02 : Byte).toNat + 8 ≤ Config.cap ∧
    ([0x02, 0x02, 0x74, 0x0E] : List Byte).length = (0x02 : Byte).toNat + 2 ∧
    Holds (held 1 [0x02, 0x02, 0x74, 0x0E]).buf 1 [0x02, 0x02, 0x74, 0x0E] ∧
    State.reset.size = 0 ∧ State.reset.complete = false ∧ State.reset.consumed = false := by decide

/-- ReuseLeavesNoResidue: reset, one delimiter, PARSE, on a block that held something. -/
theorem witness_reuse : ((next? (exec .reset (received w1Frame))).bind fun r =>
    (next? (feed [0x00] r)).bind fun u => next? (exec .parse u)).isSome = true := by decide

/-- BufferPortReadsAndWritesOneByte: the last index. -/
theorem witness_buffer_port : 255 < Config.cap ∧ byteAt (held 255 [0x00]).buf 255 = some 0x00 := by decide

/-- EncodedRangeProperties: interiors without a zero, with nothing but zeros, and of both kinds. -/
theorem witness_encoded_range : ([0x11, 0x22] : List Byte).length + 2 ≤ Config.cap ∧
    (∀ x ∈ ([0x11, 0x22] : List Byte), x ≠ 0x00) ∧ (∀ x ∈ ([0x00, 0x00] : List Byte), x = 0x00) ∧
    ([0x11, 0x00, 0x22] : List Byte)[2 - 1]? = some 0x00 := by decide

/-- CobsencEncodesTheRange, DecodingInvertsEncoding: a range at the end of the buffer, its slots without a value. -/
theorem witness_cobsenc : 251 + (([0x11, 0x00, 0x22] : List Byte).length + 2) ≤ Config.cap ∧
    Holds (held 252 [0x11, 0x00, 0x22]).buf (251 + 1) [0x11, 0x00, 0x22] ∧ (0x00 : Byte) ∈ [0x11, 0x00, 0x22] := by decide

/-- CobsencOfAShortRangeFaults: both clauses. -/
theorem witness_cobsenc_short : 1 < 2 ∧ 255 + 1 ≤ Config.cap ∧ Config.cap < 256 + 1 := by decide

/-- CobsdecDecodesTheRange: a range at the end of the buffer that decodes, and one byte that does not. -/
theorem witness_cobsdec : 251 + ([0x02, 0x11, 0x02, 0x22, 0x00] : List Byte).length ≤ Config.cap ∧
    Holds (held 251 [0x02, 0x11, 0x02, 0x22, 0x00]).buf 251 [0x02, 0x11, 0x02, 0x22, 0x00] ∧
    (cobsDecode [0x02, 0x11, 0x02, 0x22, 0x00]).isSome = true ∧ cobsDecode [0x00] = none := by decide

/-- MalformedRangesDoNotDecode: each clause (V-COBS19, V-COBS20, V-COBS16). -/
theorem witness_malformed : ([0x00] : List Byte).length < 2 ∧ ([0x02, 0x01, 0x05] : List Byte).getLast? = some 0x05 ∧
    ([0x01, 0x00, 0x01, 0x00] : List Byte)[1]? = some 0x00 ∧ JumpsTo [0x03, 0x01, 0x00] 0 ∧
    ([0x03, 0x01, 0x00] : List Byte)[0]? = some 0x03 ∧
    ([0x03, 0x01, 0x00] : List Byte).length - 1 < 0 + (0x03 : Byte).toNat :=
  ⟨by decide, by decide, by decide, .start, by decide, by decide⟩

/-- DecodesExactlyTheEncodedRanges: a range that is an encoder's output. -/
theorem witness_encoded : ([0x02, 0x11, 0x02, 0x22, 0x00] : List Byte).length ≤ Config.cap ∧
    [0x02, 0x11, 0x02, 0x22, 0x00] = cobsEncode [0x11, 0x00, 0x22] := by decide

/-- ChecksumCommandsRespondTheChecksum: a range at the end of the buffer, and the empty range at `CAP`. -/
theorem witness_checksum : 254 + ([0x00, 0x05] : List Byte).length ≤ Config.cap ∧
    Holds (held 254 [0x00, 0x05]).buf 254 [0x00, 0x05] ∧ 256 + ([] : List Byte).length ≤ Config.cap := by decide

/-- Crc16IsIncremental: V-CRC15 and V-CRC16. -/
theorem witness_incremental : ([0x31, 0x32] : List Byte).length = 2 ∧ ([0x33] : List Byte).length = 1 ∧
    0 + (2 + 1) ≤ Config.cap ∧ Holds (held 0 [0x31, 0x32, 0x33]).buf 0 [0x31, 0x32] ∧
    Holds (held 0 [0x31, 0x32, 0x33]).buf (0 + 2) [0x33] := by decide

/-- OneCorruptedByteChangesTheCrc32. -/
theorem witness_corrupted : (0x74 : Byte) ≠ 0x75 := by decide

/-- CuropenSetsTheCursor: `START = CAP`. -/
theorem witness_curopen : 256 ≤ Config.cap := by decide

/-- PutsStoreLittleEndian, UnsignedGetsZeroExtend, SignedGetsSignExtend: the last 8 bytes. -/
theorem witness_cursor : (State.reset.openCursor 248 true true).curW = true ∧
    (State.reset.openCursor 248 true true).curR = true ∧ cursorAddr (State.reset.openCursor 248 true true) + 8 ≤ Config.cap ∧
    Holds ((held 248 [8, 7, 6, 5, 4, 3, 2, 1]).openCursor 248 true false).buf
      (cursorAddr ((held 248 [8, 7, 6, 5, 4, 3, 2, 1]).openCursor 248 true false)) [8, 7, 6, 5, 4, 3, 2, 1] := by decide

/-- DisabledCursorAccessIsANoOp. -/
theorem witness_disabled : State.reset.curW = false ∧ State.reset.curR = false := by decide

/-- PutThenGetReturnsTheValue: the last index of each width. -/
theorem witness_put_get : 255 + 1 ≤ Config.cap ∧ 254 + 2 ≤ Config.cap ∧ 252 + 4 ≤ Config.cap ∧ 248 + 8 ≤ Config.cap := by
  decide

/-- SignedWriteIsThePutOfTheTwosComplement: the least and greatest value of each width. -/
theorem witness_signed : (-2 ^ 7 : Int) ≤ -128 ∧ (255 : Int) < 2 ^ 8 ∧ (-2 ^ 15 : Int) ≤ -32768 ∧ (65535 : Int) < 2 ^ 16 ∧
    (-2 ^ 31 : Int) ≤ -2147483648 ∧ (4294967295 : Int) < 2 ^ 32 ∧ (-2 ^ 63 : Int) ≤ -9223372036854775808 ∧
    (18446744073709551615 : Int) < 2 ^ 64 := by decide

/-- ReadingCommandsFrame, CursorReadsFrame, CursorWritesFrame: a next state of each, and of a disabled and a faulting write. -/
theorem witness_frames : (next? (exec (.bufrd 1) (held 1 [0x02]))).isSome = true ∧
    (next? (exec .getu16 ((held 3 [0x74, 0x0E]).openCursor 3 true false))).isSome = true ∧
    (next? (exec (.put32 1) (State.reset.openCursor 252 false true))).isSome = true ∧
    (next? (exec (.put32 1) (State.reset.openCursor 253 false true))).isSome = true ∧
    Config.cap < cursorAddr (State.reset.openCursor 253 false true) + 4 ∧ State.reset.curW = false := by decide

/-- ResetAndAddbFrame, BufwrAndCuropenFrame, CodecCommandsFrame. -/
theorem witness_frames_stores : (next? (exec .reset State.reset)).isSome = true ∧
    (next? (exec (.addb 1) State.reset)).isSome = true ∧ (next? (exec (.bufwr 255 1) State.reset)).isSome = true ∧
    (next? (exec (.curopen 256 true true) State.reset)).isSome = true ∧
    (next? (exec (.cobsenc 0 2) State.reset)).isSome = true ∧
    (next? (exec (.cobsdec 0 2) (held 0 [0x01, 0x00]))).isSome = true := by decide

/-- ParseAndPacketizeFrame. -/
theorem witness_frames_framer : (next? (exec .parse (received w1Frame))).isSome = true ∧
    byteAt (held 1 [0x00, 0x07]).buf 1 = some 0x00 ∧ (next? (exec .packetize (held 1 [0x00, 0x07]))).isSome = true := by
  decide +kernel

/-- ChannelsAreIndependent: two blocks, the second stepping, and another list with the same second block. -/
theorem witness_channels : (stepChannel 1 [State.reset, State.reset.present 1 0]).isSome = true ∧
    [held 0 [0x55], State.reset.present 1 0][1]? = [State.reset, State.reset.present 1 0][1]? := by decide

end Sys2Proof.Tests
end

section
/-! SUPPORT. What a command that answers a next state has done, said once for all 25 commands (`exec_effect`). The facts about
every command follow by cases on the effect. -/

namespace Sys2Proof.Machine

/-- The four commands whose meaning writes `SIZE`, `COMPLETE` or `CONSUMED` (10_state.md R42). -/
def writesFramer : Instr → Bool
  | .reset | .addb _ | .parse | .packetize => true
  | _ => false

/-- Everything a command can have done when it answers: the next state, with the guard under which it is that state. A buffer
`m` it leaves is given only as one that is canonical where the old one is. -/
inductive Effect (s : State) : Instr → State → Prop where
  /-- RESET (44_packet.md R204). -/
  | reset : Effect s .reset ((s.setFramer 0 false false).answer none)
  /-- ADDB refused (44_packet.md R202). -/
  | refuse (b : Byte) (h : s.complete = true ∨ s.size.toNat = Config.cap) : Effect s (.addb b) (s.answer (some 0))
  /-- ADDB accepted (44_packet.md R201). -/
  | accept (b : Byte) (hc : s.complete = false) (hs : s.size.toNat < Config.cap) :
      Effect s (.addb b)
        (((s.setBuf (storeByte s.buf s.size.toNat b)).setFramer (s.size + 1) (completeAfter s b) s.consumed).answer (some 1))
  /-- PARSE of an incomplete frame (44_packet.md R216). -/
  | parseIncomplete (hc : s.complete = false) : Effect s .parse (s.answer (some 0))
  /-- PARSE of a frame already parsed (44_packet.md R215). -/
  | doubleParse (hc : s.complete = true) (hk : s.consumed = true) :
      Effect s .parse ((s.setFault (faultCodeOf .doubleParse)).answer none)
  /-- PARSE of a complete frame, whichever gate it ends at (44_packet.md R210). -/
  | parseFrame (m : Memory) (v : Data) (hc : s.complete = true) (hk : s.consumed = false)
      (hm : Memory.wf s.buf = true → Memory.wf m = true) :
      Effect s .parse (((s.setFramer s.size s.complete true).setBuf m).answer (some v))
  /-- PACKETIZE of a payload too large for the buffer (44_packet.md R220). -/
  | packetizeTooLarge (sz : Byte) (h : Config.cap < frameLength sz.toNat) :
      Effect s .packetize ((s.setFault (faultCodeOf .capacityViolation)).answer none)
  /-- PACKETIZE (44_packet.md R220 to R222). -/
  | packetize (sz : Byte) (m : Memory) (h : frameLength sz.toNat ≤ Config.cap)
      (hm : Memory.wf s.buf = true → Memory.wf m = true) :
      Effect s .packetize (((s.setBuf m).setFramer (BitVec.ofNat 9 (frameLength sz.toNat)) true false).answer
        (some (zext64 (frameLength sz.toNat))))
  /-- A fault of a command that does not write the framer (60_exceptions.md R253). -/
  | fault {i : Instr} (hi : writesFramer i = false) (f : FaultName) : Effect s i ((s.setFault (faultCodeOf f)).answer none)
  /-- A response that leaves every register, and the buffer `m`. -/
  | respond {i : Instr} (hi : writesFramer i = false) (m : Memory) (r : Response)
      (hm : Memory.wf s.buf = true → Memory.wf m = true) : Effect s i ((s.setBuf m).answer r)
  /-- An enabled cursor access of `n` bytes inside the buffer (40_primitive_codec.md R101). -/
  | access {i : Instr} (hi : writesFramer i = false) (m : Memory) (n : Nat) (r : Response)
      (h : cursorAddr s + n ≤ Config.cap) (hm : Memory.wf s.buf = true → Memory.wf m = true) :
      Effect s i (((s.setBuf m).advanceCursor n).answer r)
  /-- CUROPEN (40_primitive_codec.md R102). -/
  | openCursor (start : Nat) (r w : Bool) (h : start ≤ Config.cap) :
      Effect s (.curopen start r w) ((s.openCursor (BitVec.ofNat 9 start) r w).answer none)

section

variable {i : Instr} {s t : State}

/-- A response that changes nothing is one that leaves the buffer it found. -/
theorem Effect.answer (hi : writesFramer i = false) (r : Response) : Effect s i (s.answer r) := .respond hi s.buf r id

/-- A range check takes the fault, or the command goes on inside the buffer. -/
theorem checkRange_effect {a n : Nat} {k : Result} (hi : writesFramer i = false) (h : checkRange a n s k = .next t)
    (hk : k = .next t → Effect s i t) : Effect s i t := by
  obtain ⟨-, h⟩ | ⟨-, rfl⟩ := checkRange_next.1 h
  · exact hk h
  · exact .fault hi _

theorem cursorWrite_effect {w v : Nat} (hi : writesFramer i = false) (h : cursorWrite w v s = .next t) : Effect s i t := by
  obtain ⟨-, rfl⟩ | ⟨-, hcap, rfl⟩ | ⟨-, -, rfl⟩ := cursorWrite_next.1 h
  · exact .answer hi _
  · exact .access hi _ w none hcap (wf_storeValue _ _ _)
  · exact .fault hi _

theorem cursorRead_effect {w : Nat} {ext : Nat → Data} (hi : writesFramer i = false) (h : cursorRead w ext s = .next t) :
    Effect s i t := by
  obtain ⟨-, rfl⟩ | ⟨-, hcap, v, -, rfl⟩ | ⟨-, -, rfl⟩ := cursorRead_next.1 h
  · exact .answer hi _
  · exact .access hi s.buf w (some (ext v)) hcap id
  · exact .fault hi _

/-- Reading a value `v` and responding with it changes nothing (BUFRD, CRC32, CRC16). -/
theorem readRespond_effect {α : Type} {x : Except Fault α} {f : α → Data} (hi : writesFramer i = false)
    (h : readThen x (fun v => respond (f v) s) = .next t) : Effect s i t := by
  obtain ⟨v, -, h⟩ := readThen_next.1 h
  obtain rfl := respond_next.1 h
  exact .answer hi _

theorem execBufwr_effect {start : Nat} {b : Byte} (h : execBufwr start b s = .next t) : Effect s (.bufwr start b) t :=
  checkRange_effect rfl h fun h => by
    obtain rfl := respondNone_next.1 h
    exact .respond rfl _ none (wf_storeByte _ _)

theorem execCobsenc_effect {start len : Nat} (h : execCobsenc start len s = .next t) : Effect s (.cobsenc start len) t :=
  checkRange_effect rfl h fun h => by
    split at h
    · obtain rfl := raiseFault_next.1 h
      exact .fault rfl _
    · obtain ⟨m, hm, h⟩ := readThen_next.1 h
      obtain rfl := respondNone_next.1 h
      exact .respond rfl m none fun hwf => wf_cobsEncodeAt hwf hm

theorem execCobsdec_effect {start len : Nat} (h : execCobsdec start len s = .next t) : Effect s (.cobsdec start len) t :=
  checkRange_effect rfl h fun h => by
    obtain ⟨d, hd, h⟩ := readThen_next.1 h
    obtain rfl := respond_next.1 h
    exact .respond rfl d.2 _ fun hwf => wf_cobsDecodeAt hwf hd

theorem execCuropen_effect {start : Nat} {r w : Bool} (h : execCuropen start r w s = .next t) :
    Effect s (.curopen start r w) t := by
  obtain ⟨hcap, h⟩ | ⟨-, rfl⟩ := checkRange_next.1 h
  · obtain rfl := respondNone_next.1 h
    exact .openCursor start r w hcap
  · exact .fault rfl _

/-! ### The framer's commands -/

theorem full_iff : s.full = true ↔ s.size.toNat = Config.cap := decide_eq_true_iff

theorem execAddb_effect {b : Byte} (h : execAddb b s = .next t) : Effect s (.addb b) t := by
  unfold execAddb at h
  split at h
  · next hr =>
    obtain rfl := respond_next.1 h
    exact .refuse b (by simpa [full_iff] using hr)
  · next hr =>
    obtain ⟨hc, -⟩ : s.complete = false ∧ s.full = false := by simpa using hr
    split at h
    · next hs =>
      obtain rfl := respond_next.1 h
      exact .accept b hc hs
    · cases h

/-- The gates after the decode read the buffer and respond, and change nothing (44_packet.md R210, steps (3) to (5)). -/
theorem parseBody_next {n : Nat} (h : parseBody n s = .next t) : ∃ v, t = s.answer (some v) := by
  unfold parseBody at h
  obtain ⟨body, -, h⟩ := readThen_next.1 h
  obtain ⟨stored, -, h⟩ := readThen_next.1 h
  split at h
  · exact ⟨_, respond_next.1 h⟩
  split at h
  · exact ⟨_, respond_next.1 h⟩
  obtain ⟨sz, -, h⟩ := readThen_next.1 h
  split at h
  · exact ⟨_, respond_next.1 h⟩
  obtain ⟨id, -, h⟩ := readThen_next.1 h
  exact ⟨_, respond_next.1 h⟩

/-- PARSE of a complete frame leaves the buffer, or what the decode made of it, and responds. -/
theorem parseFrame_next (h : parseFrame s = .next t) :
    ∃ m v, t = (s.setBuf m).answer (some v) ∧ (Memory.wf s.buf = true → Memory.wf m = true) := by
  unfold parseFrame at h
  split at h
  · exact ⟨s.buf, 0, respond_next.1 h, id⟩
  obtain ⟨d, hd, h⟩ := readThen_next.1 h
  have hm : Memory.wf s.buf = true → Memory.wf d.2 = true := fun hwf => wf_cobsDecodeAt hwf hd
  split at h
  · obtain ⟨v, ht⟩ := parseBody_next h
    exact ⟨d.2, v, ht, hm⟩
  · exact ⟨d.2, 0, respond_next.1 h, hm⟩

theorem execParse_effect (h : execParse s = .next t) : Effect s .parse t := by
  unfold execParse at h
  split at h
  · next hc =>
    obtain rfl := respond_next.1 h
    exact .parseIncomplete (by simpa using hc)
  next hc =>
  have hc : s.complete = true := by simpa using hc
  split at h
  · next hk =>
    obtain rfl := raiseFault_next.1 h
    exact .doubleParse hc hk
  · next hk =>
    obtain ⟨m, v, rfl, hm⟩ := parseFrame_next h
    exact .parseFrame m v hc (Bool.eq_false_iff.2 hk) hm

theorem execPacketize_effect (h : execPacketize s = .next t) : Effect s .packetize t := by
  obtain ⟨sz, -, h⟩ := readThen_next.1 h
  obtain ⟨hcap, h⟩ | ⟨hcap, rfl⟩ := checkRange_next.1 h
  · obtain ⟨body, -, h⟩ := readThen_next.1 h
    obtain ⟨m, hm, h⟩ := readThen_next.1 h
    obtain rfl := respond_next.1 h
    rw [Nat.zero_add] at hcap
    exact .packetize sz m hcap fun hwf => wf_cobsEncodeAt (wf_storeValue _ _ _ hwf) hm
  · rw [Nat.zero_add] at hcap
    exact .packetizeTooLarge sz hcap

/-- What a command that answers a next state has done. -/
theorem exec_effect (h : exec i s = .next t) : Effect s i t := by
  cases i with
  | reset =>
    obtain rfl := respondNone_next.1 h
    exact .reset
  | addb b => exact execAddb_effect h
  | complete | status | curpos =>
    obtain rfl := respond_next.1 h
    exact .answer rfl _
  | parse => exact execParse_effect h
  | packetize => exact execPacketize_effect h
  | bufrd | crc32 | crc16 => exact checkRange_effect rfl h (readRespond_effect rfl)
  | bufwr => exact execBufwr_effect h
  | cobsenc => exact execCobsenc_effect h
  | cobsdec => exact execCobsdec_effect h
  | curopen => exact execCuropen_effect h
  | put8 | put16 | put32 | put64 => exact cursorWrite_effect rfl h
  | getu8 | getu16 | getu32 | get64 | gets8 | gets16 | gets32 => exact cursorRead_effect rfl h

end

end Sys2Proof.Machine
end

section
/-! SUPPORT. The invariant: each update of the state keeps it under its guard, so every effect of a command keeps it, so every
step does. -/

namespace Sys2Proof.Machine

section

variable {s : State}

theorem inv_reset : Inv State.reset :=
  ⟨wf_nil, by decide, by decide, by decide, by decide, by decide, by decide⟩

theorem Inv.answer (h : Inv s) (r : Response) : Inv (s.answer r) :=
  ⟨h.buf_wf, h.size_le, h.consumed_complete, h.complete_size, h.cursor_le, h.code_le, h.fault_iff⟩

theorem Inv.takeCommand (h : Inv s) (rest : List HostEvent) : Inv (s.takeCommand rest) :=
  ⟨h.buf_wf, h.size_le, h.consumed_complete, h.complete_size, h.cursor_le, h.code_le, h.fault_iff⟩

/-- Power-on reset gives the block's fields their values of `State.reset`, and the invariant is about those only. -/
theorem inv_powerOnReset (s : State) (rest : List HostEvent) : Inv (s.powerOnReset rest) :=
  ⟨inv_reset.buf_wf, inv_reset.size_le, inv_reset.consumed_complete, inv_reset.complete_size, inv_reset.cursor_le,
    inv_reset.code_le, inv_reset.fault_iff⟩

theorem Inv.setBuf (h : Inv s) {m : Memory} (hm : Memory.wf m = true) : Inv (s.setBuf m) :=
  ⟨hm, h.size_le, h.consumed_complete, h.complete_size, h.cursor_le, h.code_le, h.fault_iff⟩

theorem Inv.setFramer (h : Inv s) {n : BitVec 9} {c k : Bool} (hn : n.toNat ≤ Config.cap) (hk : k = true → c = true)
    (hc : c = true → 1 ≤ n.toNat) : Inv (s.setFramer n c k) :=
  ⟨h.buf_wf, hn, hk, hc, h.cursor_le, h.code_le, h.fault_iff⟩

theorem Inv.setFault (h : Inv s) (f : FaultName) : Inv (s.setFault (faultCodeOf f)) :=
  ⟨h.buf_wf, h.size_le, h.consumed_complete, h.complete_size, h.cursor_le, faultCodeOf_le f,
    iff_of_true rfl (faultCodeOf_ne_zero f)⟩

theorem Inv.openCursor (h : Inv s) {n : BitVec 9} (r w : Bool) (hn : n.toNat ≤ Config.cap) : Inv (s.openCursor n r w) :=
  ⟨h.buf_wf, h.size_le, h.consumed_complete, h.complete_size, hn, h.code_le, h.fault_iff⟩

/-- The cursor's guard keeps it inside the buffer: the position advances without wrapping. -/
theorem Inv.advanceCursor (h : Inv s) {n : Nat} (hn : cursorAddr s + n ≤ Config.cap) : Inv (s.advanceCursor n) := by
  have hpos : (s.curPos + BitVec.ofNat 9 n).toNat = s.curPos.toNat + n :=
    toNat_advance (by unfold cursorAddr at hn; omega)
  have hcur : s.curBase.toNat + (s.curPos + BitVec.ofNat 9 n).toNat ≤ Config.cap := by
    rw [hpos, ← Nat.add_assoc]; exact hn
  exact ⟨h.buf_wf, h.size_le, h.consumed_complete, h.complete_size, hcur, h.code_le, h.fault_iff⟩

/-- A number of bytes that fits the buffer is a legal value of the 9-bit registers. -/
theorem toNat_ofNat_of_le_cap {n : Nat} (h : n ≤ Config.cap) : (BitVec.ofNat 9 n).toNat = n := by
  rw [cap_eq] at h
  rw [BitVec.toNat_ofNat, Nat.mod_eq_of_lt (by omega)]

/-- `SIZE` counts an accepted byte without wrapping. -/
theorem toNat_size_succ (h : s.size.toNat < Config.cap) : (s.size + 1).toNat = s.size.toNat + 1 :=
  toNat_advance (n := 1) h

/-- Every effect of a command keeps the invariant. -/
theorem Effect.inv {i : Instr} {t : State} (e : Effect s i t) (h : Inv s) : Inv t := by
  cases e with
  | reset => exact (h.setFramer (by decide) id (by simp)).answer _
  | refuse => exact h.answer _
  | accept b hc hs =>
    have hn := toNat_size_succ hs
    refine ((h.setBuf (wf_storeByte _ _ h.buf_wf)).setFramer (by omega) (fun hk => ?_) (fun _ => by omega)).answer _
    simp [completeAfter, h.consumed_complete hk]
  | parseIncomplete => exact h.answer _
  | doubleParse => exact (h.setFault _).answer _
  | parseFrame m v hc hk hm => exact ((h.setFramer h.size_le (fun _ => hc) h.complete_size).setBuf (hm h.buf_wf)).answer _
  | packetizeTooLarge => exact (h.setFault _).answer _
  | packetize sz m hlen hm =>
    have hn := toNat_ofNat_of_le_cap hlen
    have hpos : 1 ≤ frameLength sz.toNat := Nat.le_add_left_of_le (by decide)
    exact ((h.setBuf (hm h.buf_wf)).setFramer (by omega) (by simp) (fun _ => by omega)).answer _
  | fault _ f => exact (h.setFault f).answer _
  | respond _ m r hm => exact (h.setBuf (hm h.buf_wf)).answer r
  | access _ m n r hn hm => exact ((h.setBuf (hm h.buf_wf)).advanceCursor hn).answer r
  | openCursor start r w hs => exact (h.openCursor r w (by rwa [toNat_ofNat_of_le_cap hs])).answer _

/-- Every transaction keeps the invariant: a turned-away word, an illegal word and an executed command. -/
theorem issue_keeps_inv {w : CommandWord} {d : Data} {t : State} (h : Inv s) (ht : issue w d s = .next t) : Inv t := by
  unfold issue at ht
  split at ht
  · split at ht
    · exact (exec_effect ht).inv h
    · obtain rfl := respondNone_next.1 ht
      exact h.answer _
  · split at ht
    · exact (exec_effect ht).inv h
    · obtain rfl := raiseFault_next.1 ht
      exact (h.setFault _).answer _

end

/-- Settles O12: each clause holds of the values of R270. -/
theorem resetMeetsTheInvariant : Obligations.ResetMeetsTheInvariant := inv_reset

/-- Settles O13, by cases on the host's next event. -/
theorem stepKeepsTheInvariant : Obligations.StepKeepsTheInvariant := by
  intro s t h ht
  unfold step serveHost at ht
  split at ht
  · cases ht
    exact h
  · exact issue_keeps_inv (h.takeCommand _) ht
  · cases ht
    exact inv_powerOnReset _ _

end Sys2Proof.Machine
end

section
/-! SUPPORT. The flags and the framer's states (10_state.md R39, R42), by cases on a command's effect. -/

namespace Sys2Proof.Machine

section

variable {i : Instr} {s t : State}

/-- A command that takes a fault leaves the framer's registers. -/
theorem Effect.keepsFramer_of_fault (e : Effect s i t) (hs : s.fault = false) (ht : t.fault = true) : KeepsFramer s t := by
  cases e with
  | reset | accept | parseFrame | packetize => exact absurd (hs.symm.trans ht) Bool.false_ne_true
  | refuse | parseIncomplete | doubleParse | packetizeTooLarge | fault | respond | access | openCursor => exact ⟨rfl, rfl, rfl⟩

/-! ### The flag table -/

/-- The delimiter completes the frame. -/
@[simp] theorem completeAfter_delimiter (s : State) : completeAfter s 0x00 = true := by simp [completeAfter, Config.delimiter]

/-- No other byte writes `COMPLETE`. -/
theorem completeAfter_of_ne {b : Byte} (s : State) (hb : b ≠ 0x00) : completeAfter s b = s.complete := by
  have hd : (b == Config.delimiter) = false := beq_false_of_ne hb
  rw [completeAfter, hd, Bool.or_false]

/-- ADDB with room for a byte does not refuse it: it takes the byte. -/
theorem Effect.eq_of_addb {b : Byte} (e : Effect s (.addb b) t) (hc : s.complete = false) (hs : s.size.toNat ≠ Config.cap) :
    s.size.toNat < Config.cap ∧
      t = ((s.setBuf (storeByte s.buf s.size.toNat b)).setFramer (s.size + 1) (completeAfter s b) s.consumed).answer
        (some 1) := by
  cases e with
  | refuse _ h => simp [hc, hs] at h
  | accept _ _ hlt => exact ⟨hlt, rfl⟩
  | fault hi | respond hi | access hi => cases hi

/-- PARSE of a complete frame that is not parsed writes `CONSUMED` and nothing else of the framer. -/
theorem Effect.framer_of_parse (e : Effect s .parse t) (hc : s.complete = true) (hk : s.consumed = false) :
    t.size = s.size ∧ t.complete = true ∧ t.consumed = true := by
  cases e with
  | parseIncomplete hc' => rw [hc] at hc'; cases hc'
  | doubleParse _ hk' => rw [hk] at hk'; cases hk'
  | parseFrame => exact ⟨rfl, hc, rfl⟩
  | fault hi | respond hi | access hi => cases hi

theorem Effect.framer_of_reset (e : Effect s .reset t) : t.size = 0 ∧ t.complete = false ∧ t.consumed = false := by
  cases e with
  | reset => exact ⟨rfl, rfl, rfl⟩
  | fault hi | respond hi | access hi => cases hi

theorem Effect.flags_of_packetize (e : Effect s .packetize t) (ht : t.fault = false) :
    t.complete = true ∧ t.consumed = false := by
  cases e with
  | packetizeTooLarge => cases ht
  | packetize => exact ⟨rfl, rfl⟩
  | fault hi | respond hi | access hi => cases hi

/-- The last row of R42: outside the other rows' guards a command leaves both flags. -/
theorem Effect.keepsFlags (e : Effect s i t)
    (haddb : ¬(i = .addb 0x00 ∧ s.complete = false ∧ s.size.toNat ≠ Config.cap)) (hreset : i ≠ .reset)
    (hparse : ¬(i = .parse ∧ s.complete = true ∧ s.consumed = false)) (hpacketize : i ≠ .packetize) :
    t.complete = s.complete ∧ t.consumed = s.consumed := by
  cases e with
  | reset => exact absurd rfl hreset
  | accept b hc hs =>
    have hb : b ≠ 0x00 := fun hb => haddb ⟨by rw [hb], hc, hs.ne⟩
    exact ⟨completeAfter_of_ne s hb, rfl⟩
  | parseFrame _ _ hc hk => exact absurd ⟨rfl, hc, hk⟩ hparse
  | packetizeTooLarge | packetize => exact absurd rfl hpacketize
  | refuse | parseIncomplete | doubleParse | fault | respond | access | openCursor => exact ⟨rfl, rfl⟩

/-! ### The framer's states -/

theorem framerState_of_incomplete (hc : s.complete = false) :
    s.framerState = if s.size = 0 then .empty else if s.size.toNat = Config.cap then .receivingFull else .receiving := by
  simp [State.framerState, hc, full_iff]

theorem framerState_of_complete (hc : s.complete = true) :
    s.framerState = if s.consumed then .completeParsed else .completeUnparsed := by
  simp [State.framerState, hc]

theorem framerState_eq_empty : s.framerState = .empty ↔ s.complete = false ∧ s.size = 0 := by
  cases hc : s.complete
  · rw [framerState_of_incomplete hc]; split_ifs <;> simp_all
  · rw [framerState_of_complete hc]; split_ifs <;> simp

theorem framerState_eq_receiving :
    s.framerState = .receiving ↔ s.complete = false ∧ s.size ≠ 0 ∧ s.size.toNat ≠ Config.cap := by
  cases hc : s.complete
  · rw [framerState_of_incomplete hc]; split_ifs <;> simp_all
  · rw [framerState_of_complete hc]; split_ifs <;> simp

theorem framerState_eq_completeUnparsed :
    s.framerState = .completeUnparsed ↔ s.complete = true ∧ s.consumed = false := by
  cases hc : s.complete
  · rw [framerState_of_incomplete hc]; split_ifs <;> simp
  · rw [framerState_of_complete hc]; split_ifs <;> simp_all

theorem framerState_eq_completeParsed : s.framerState = .completeParsed ↔ s.complete = true ∧ s.consumed = true := by
  cases hc : s.complete
  · rw [framerState_of_incomplete hc]; split_ifs <;> simp
  · rw [framerState_of_complete hc]; split_ifs <;> simp_all

/-- `Empty` and `Receiving` are the states with room for a byte. -/
theorem accepts_of_framerState (h : s.framerState = .empty ∨ s.framerState = .receiving) :
    s.complete = false ∧ s.size.toNat ≠ Config.cap := by
  rcases h with h | h
  · obtain ⟨hc, hs⟩ := framerState_eq_empty.1 h
    exact ⟨hc, by rw [hs]; decide⟩
  · obtain ⟨hc, -, hs⟩ := framerState_eq_receiving.1 h
    exact ⟨hc, hs⟩

/-- The state an accepted byte leads to (10_state.md R39). -/
theorem Effect.framerState_of_addb {b : Byte} (e : Effect s (.addb b) t) (hk : s.consumed = false) (hc : s.complete = false)
    (hs : s.size.toNat ≠ Config.cap) :
    t.framerState = if b = 0x00 then .completeUnparsed
      else if s.size.toNat + 1 = Config.cap then .receivingFull else .receiving := by
  obtain ⟨hlt, rfl⟩ := e.eq_of_addb hc hs
  have hn := toNat_size_succ hlt
  split
  · next hb =>
    subst hb
    exact framerState_eq_completeUnparsed.2 ⟨completeAfter_delimiter s, hk⟩
  next hb =>
  have hct : completeAfter s b = false := (completeAfter_of_ne s hb).trans hc
  have hne : s.size + 1 ≠ 0 := fun h0 => absurd (hn.symm.trans (congrArg BitVec.toNat h0)) (Nat.succ_ne_zero _)
  refine (framerState_of_incomplete hct).trans ?_
  simp only [answer_size, setFramer_size, hn, if_neg hne]

end

/-- Settles O17, a clause per row of R42. -/
theorem flagTable : Obligations.FlagTable := by
  intro i s t hs h
  have e := exec_effect h
  refine ⟨fun ht => ?_, fun ht => ⟨?_, ?_, ?_, ?_, e.keepsFlags⟩⟩
  · obtain ⟨-, hc, hk⟩ := e.keepsFramer_of_fault hs ht
    exact ⟨hc, hk⟩
  · rintro rfl hc hsize
    obtain ⟨-, rfl⟩ := e.eq_of_addb hc hsize
    exact ⟨completeAfter_delimiter s, rfl⟩
  · rintro rfl
    exact e.framer_of_reset.2
  · rintro rfl hc hk
    obtain ⟨-, hc', hk'⟩ := e.framer_of_parse hc hk
    exact ⟨hc'.trans hc.symm, hk'⟩
  · rintro rfl
    exact e.flags_of_packetize ht

/-- Settles O23, an arrow of R39's diagram at a time. -/
theorem framerStatesFollowTheDiagram : Obligations.FramerStatesFollowTheDiagram := by
  intro s t b hk
  refine ⟨fun hstate h => ?_, fun hstate h => ?_, fun h => ?_⟩
  · obtain ⟨hc, hs⟩ := accepts_of_framerState hstate
    exact (exec_effect h).framerState_of_addb hk hc hs
  · obtain ⟨hc, -⟩ := framerState_eq_completeUnparsed.1 hstate
    obtain ⟨-, hflags⟩ := (exec_effect h).framer_of_parse hc hk
    exact framerState_eq_completeParsed.2 hflags
  · obtain ⟨hsize, hc, -⟩ := (exec_effect h).framer_of_reset
    exact framerState_eq_empty.2 ⟨hc, hsize⟩

end Sys2Proof.Machine
end

section
/-! SUPPORT. The status word (10_state.md R41): every field at its bits. -/

namespace Sys2Proof.Machine

theorem extractLsb'_eq_of_bitField {d : Data} {i w : Nat} {v : BitVec w} (h : bitField d.toNat i w = v.toNat) :
    d.extractLsb' i w = v :=
  BitVec.eq_of_toNat_eq (by rw [BitVec.extractLsb'_toNat, Nat.shiftRight_eq_div_pow]; exact h)

theorem getLsbD_eq_of_bitField {d : Data} {i : Nat} {b : Bool} (h : bitField d.toNat i 1 = b.toNat) : d.getLsbD i = b := by
  have hd : d.getLsbD i = decide (d.toNat / 2 ^ i % 2 = 1) := Nat.testBit_eq_decide_div_mod_eq
  rw [hd, show d.toNat / 2 ^ i % 2 = b.toNat from h]
  cases b <;> rfl

/-- The fields of the status word do not overlap, and end at bit 35. -/
theorem bitField_statusWord (s : State) :
    bitField (statusWord s).toNat 0 9 = s.size.toNat ∧ bitField (statusWord s).toNat 9 1 = s.complete.toNat ∧
    bitField (statusWord s).toNat 10 1 = s.consumed.toNat ∧ bitField (statusWord s).toNat 11 1 = s.full.toNat ∧
    bitField (statusWord s).toNat 12 1 = s.fault.toNat ∧ bitField (statusWord s).toNat 13 3 = s.faultCode.toNat ∧
    bitField (statusWord s).toNat 16 9 = s.curBase.toNat ∧ bitField (statusWord s).toNat 25 9 = s.curPos.toNat ∧
    bitField (statusWord s).toNat 34 1 = s.curR.toNat ∧ bitField (statusWord s).toNat 35 1 = s.curW.toNat ∧
    bitField (statusWord s).toNat 36 28 = 0 := by
  have hsize := s.size.isLt
  have hcode := s.faultCode.isLt
  have hbase := s.curBase.isLt
  have hpos := s.curPos.isLt
  have hcomplete := s.complete.toNat_lt
  have hconsumed := s.consumed.toNat_lt
  have hfull := s.full.toNat_lt
  have hfault := s.fault.toNat_lt
  have hr := s.curR.toNat_lt
  have hw := s.curW.toNat_lt
  simp only [statusWord, bit, bitField, BitVec.toNat_ofNat]
  refine ⟨?_, ?_, ?_, ?_, ?_, ?_, ?_, ?_, ?_, ?_, ?_⟩ <;> omega

/-- Settles O24: the responses are the registers, and the status word's fields come from `bitField_statusWord`. -/
theorem queriesReportTheState : Obligations.QueriesReportTheState := by
  intro s
  have hcomplete : zext64 s.complete.toNat = if s.complete then 1 else 0 := by cases s.complete <;> rfl
  have hcurpos : zext64 s.curPos.toNat = s.curPos.setWidth 64 := BitVec.ofNat_toNat 64 s.curPos
  refine ⟨by rw [← hcomplete]; rfl, by rw [← hcurpos]; rfl, statusWord s, rfl, ?_⟩
  obtain ⟨hsize, hcomp, hcons, hfull, hfault, hcode, hbase, hpos, hr, hw, hrsv⟩ := bitField_statusWord s
  refine ⟨extractLsb'_eq_of_bitField hsize, getLsbD_eq_of_bitField hcomp, getLsbD_eq_of_bitField hcons, ?_,
    getLsbD_eq_of_bitField hfault, extractLsb'_eq_of_bitField hcode, extractLsb'_eq_of_bitField hbase,
    extractLsb'_eq_of_bitField hpos, getLsbD_eq_of_bitField hr, getLsbD_eq_of_bitField hw, extractLsb'_eq_of_bitField hrsv⟩
  rw [getLsbD_eq_of_bitField hfull, full_iff]

end Sys2Proof.Machine
end

section
/-! SUPPORT. The range check (20_memory.md R62): a range past the buffer takes `CAPACITY_VIOLATION` in every command that names
one. -/

namespace Sys2Proof.Machine

section

variable {s : State}

/-- A range past the buffer ends the command before what it would have gone on to do. -/
theorem checkRange_past {a n : Nat} {k : Result} (h : Config.cap < a + n) :
    checkRange a n s k = .next (FaultTaken .capacityViolation s) :=
  checkRange_of_lt h

theorem cursorWrite_past {w v : Nat} (hw : s.curW = true) (h : Config.cap < cursorAddr s + w) :
    cursorWrite w v s = .next (FaultTaken .capacityViolation s) :=
  cursorWrite_next.2 (.inr (.inr ⟨hw, h, rfl⟩))

theorem cursorRead_past {w : Nat} {ext : Nat → Data} (hr : s.curR = true) (h : Config.cap < cursorAddr s + w) :
    cursorRead w ext s = .next (FaultTaken .capacityViolation s) :=
  cursorRead_next.2 (.inr (.inr ⟨hr, h, rfl⟩))

/-- PACKETIZE reads the header's size first, and then finds that the frame does not fit (60_exceptions.md R255). -/
theorem execPacketize_past {sz : Byte} (hsz : byteAt s.buf 1 = some sz) (h : Config.cap < frameLength sz.toNat) :
    execPacketize s = .next (FaultTaken .capacityViolation s) := by
  have hload : loadByte s.buf 1 = .ok sz := loadByte_eq_ok.2 ⟨by decide, hsz⟩
  exact readThen_next.2 ⟨sz, hload, checkRange_past (by rwa [Nat.zero_add])⟩

end

/-- Settles O18: each command's meaning is a range check, or the cursor's, or PACKETIZE's after the read of the header. -/
theorem rangePastTheBufferFaults : Obligations.RangePastTheBufferFaults := by
  intro s
  refine ⟨fun a h => ⟨?bufrd, fun b => ?bufwr⟩,
    fun a n h => ⟨?cobsenc, ?cobsdec, ?crc32, fun seed => ?crc16⟩,
    fun a r w h => ?curopen, fun hw => ?puts, fun hr => ?gets, fun sz hsz h => ?packetize⟩
  case bufrd | bufwr | cobsenc | cobsdec | crc32 | crc16 | curopen => exact checkRange_past h
  case puts => exact ⟨fun h v => cursorWrite_past hw h, fun h v => cursorWrite_past hw h,
    fun h v => cursorWrite_past hw h, fun h v => cursorWrite_past hw h⟩
  case gets => exact ⟨fun h => ⟨cursorRead_past hr h, cursorRead_past hr h⟩,
    fun h => ⟨cursorRead_past hr h, cursorRead_past hr h⟩,
    fun h => ⟨cursorRead_past hr h, cursorRead_past hr h⟩, fun h => cursorRead_past hr h⟩
  case packetize => exact execPacketize_past hsz h

end Sys2Proof.Machine
end

section
/-! SUPPORT. The commands that only read: what they can answer, and what the two answers leave unchanged. -/

namespace Sys2Proof.Machine

section

variable {s t : State} {i : Instr}

/-- A response with nothing else changed is a frame of everything but the responses. -/
theorem answer_frame (s : State) (r : Response) :
    KeepsBytes s (s.answer r) ∧ KeepsFramer s (s.answer r) ∧ KeepsCursor s (s.answer r) ∧ KeepsHost s (s.answer r) ∧
      KeepsFault s (s.answer r) :=
  ⟨fun _ => rfl, ⟨rfl, rfl, rfl⟩, ⟨rfl, rfl, rfl, rfl⟩, ⟨rfl, rfl⟩, ⟨rfl, rfl⟩⟩

/-- A fault taken is a frame of everything but the fault record and the responses (60_exceptions.md R253). -/
theorem faultTaken_frame (s : State) (f : FaultName) :
    KeepsBytes s (FaultTaken f s) ∧ KeepsFramer s (FaultTaken f s) ∧ KeepsCursor s (FaultTaken f s) ∧
      KeepsHost s (FaultTaken f s) ∧ KeepsFaultOr f s (FaultTaken f s) :=
  ⟨fun _ => rfl, ⟨rfl, rfl, rfl⟩, ⟨rfl, rfl, rfl, rfl⟩, ⟨rfl, rfl⟩, .inr ⟨rfl, rfl, rfl⟩⟩

/-- Reading a checked range and responding with a value of it responds, or takes `CAPACITY_VIOLATION`. -/
theorem checkedRead_next {α : Type} {a n : Nat} {x : Except Fault α} {f : α → Data}
    (h : checkRange a n s (readThen x fun v => respond (f v) s) = .next t) :
    (∃ r, t = s.answer r) ∨ t = FaultTaken .capacityViolation s := by
  obtain ⟨-, h⟩ | ⟨-, rfl⟩ := checkRange_next.1 h
  · obtain ⟨v, -, h⟩ := readThen_next.1 h
    exact .inl ⟨some (f v), respond_next.1 h⟩
  · exact .inr rfl

/-- The commands that only read respond, or take `CAPACITY_VIOLATION`. -/
theorem readingCommand_next
    (hi : i = .complete ∨ i = .status ∨ i = .curpos ∨ (∃ a, i = .bufrd a) ∨ (∃ a n, i = .crc32 a n) ∨
      ∃ a n seed, i = .crc16 a n seed)
    (h : exec i s = .next t) : (∃ r, t = s.answer r) ∨ t = FaultTaken .capacityViolation s := by
  obtain rfl | rfl | rfl | ⟨a, rfl⟩ | ⟨a, n, rfl⟩ | ⟨a, n, seed, rfl⟩ := hi
  case inl | inr.inl | inr.inr.inl => exact .inl ⟨_, respond_next.1 h⟩
  all_goals exact checkedRead_next h

end

/-- Settles O53, by the two answers of a reading command. -/
theorem readingCommandsFrame : Obligations.ReadingCommandsFrame := by
  intro s t i hi h
  obtain ⟨r, rfl⟩ | rfl := readingCommand_next hi h
  · obtain ⟨hbytes, hframer, hcursor, hhost, hfault⟩ := answer_frame s r
    exact ⟨hbytes, hframer, hcursor, hhost, .inl hfault⟩
  · exact faultTaken_frame s _

end Sys2Proof.Machine
end

section
/-! SUPPORT. No command of a state with `SIZE <= CAP` reaches past the buffer (20_memory.md R60, R62): every read is of a range
inside it, so a command answers a next state or stops on a byte that holds no value. -/

namespace Sys2Proof.Machine

/-- A read that stays inside the buffer: it gives a value, or finds a byte that holds none. -/
def ReadsInside {α : Type} (x : Except Fault α) : Prop := (∃ v, x = .ok v) ∨ x = .error .unwrittenRead

/-- A command that stays inside the buffer: it answers a next state, or has read a byte that holds no value. -/
def EndsInside (r : Result) : Prop := (∃ t, r = .next t) ∨ r = .fault .unwrittenRead

/-! ### Reads -/

section

variable {m : Memory} {a n : Nat}

theorem loadBytes_readsInside (h : a + n ≤ Config.cap) : ReadsInside (loadBytes m a n) := loadBytes_cases h

theorem loadByte_readsInside (h : a < Config.cap) : ReadsInside (loadByte m a) := by
  unfold loadByte
  rw [if_pos h]
  split
  · exact .inl ⟨_, rfl⟩
  · exact .inr rfl

theorem loadValue_readsInside (h : a + n ≤ Config.cap) : ReadsInside (loadValue m a n) := by
  obtain ⟨bs, hbs⟩ | herr := loadBytes_cases h
  · exact .inl ⟨leValue bs, loadValue_eq_ok.2 ⟨bs, hbs, rfl⟩⟩
  · exact .inr (by rw [loadValue, herr])

/-- The encoder reads the interior of its range only (42_cobs.md R161). -/
theorem cobsEncodeAt_readsInside (h2 : 2 ≤ n) (h : a + n ≤ Config.cap) : ReadsInside (cobsEncodeAt m a n) := by
  obtain ⟨bs, hbs⟩ | herr := loadBytes_cases (m := m) (a := a + 1) (n := n - 2) (by omega)
  · exact .inl ⟨_, cobsEncodeAt_eq_ok.2 ⟨bs, hbs, rfl⟩⟩
  · exact .inr (by rw [cobsEncodeAt, herr])

theorem cobsDecodeAt_readsInside (h : a + n ≤ Config.cap) : ReadsInside (cobsDecodeAt m a n) := by
  obtain ⟨bs, hbs⟩ | herr := loadBytes_cases (m := m) h
  · cases hd : cobsDecode bs with
    | none => exact .inl ⟨_, cobsDecodeAt_eq_ok.2 ⟨bs, hbs, .inr ⟨hd, rfl⟩⟩⟩
    | some d => exact .inl ⟨_, cobsDecodeAt_eq_ok.2 ⟨bs, hbs, .inl ⟨d, hd, rfl⟩⟩⟩
  · exact .inr (by rw [cobsDecodeAt, herr])

end

/-! ### The shared operations -/

section

variable {s : State}

theorem respond_endsInside (v : Data) (s : State) : EndsInside (respond v s) := .inl ⟨_, rfl⟩

theorem respondNone_endsInside (s : State) : EndsInside (respondNone s) := .inl ⟨_, rfl⟩

theorem raiseFault_endsInside (f : FaultName) (s : State) : EndsInside (raiseFault f s) := .inl ⟨_, rfl⟩

theorem readThen_endsInside {α : Type} {x : Except Fault α} {k : α → Result} (hx : ReadsInside x)
    (hk : ∀ v, EndsInside (k v)) : EndsInside (readThen x k) := by
  obtain ⟨v, rfl⟩ | rfl := hx
  · exact hk v
  · exact .inr rfl

/-- A command goes on only with a range inside the buffer. -/
theorem checkRange_endsInside {a n : Nat} {k : Result} (hk : a + n ≤ Config.cap → EndsInside k) :
    EndsInside (checkRange a n s k) := by
  by_cases h : a + n ≤ Config.cap
  · rw [checkRange_of_le h]
    exact hk h
  · exact .inl ⟨_, checkRange_past (Nat.lt_of_not_le h)⟩

theorem cursorWrite_endsInside (w v : Nat) (s : State) : EndsInside (cursorWrite w v s) := by
  unfold cursorWrite
  split
  · exact respondNone_endsInside s
  · exact checkRange_endsInside fun _ => respondNone_endsInside _

theorem cursorRead_endsInside (w : Nat) (ext : Nat → Data) (s : State) : EndsInside (cursorRead w ext s) := by
  unfold cursorRead
  split
  · exact respondNone_endsInside s
  · exact checkRange_endsInside fun h => readThen_endsInside (loadValue_readsInside h) fun _ => respond_endsInside _ _

/-- Reading bytes of a checked range and responding with a value of them (CRC32, CRC16). -/
theorem checkedRead_endsInside {a n : Nat} {f : List Byte → Data} :
    EndsInside (checkRange a n s (readThen (loadBytes s.buf a n) fun bs => respond (f bs) s)) :=
  checkRange_endsInside fun h => readThen_endsInside (loadBytes_readsInside h) fun _ => respond_endsInside _ _

/-! ### The commands -/

theorem execBufrd_endsInside (start : Nat) (s : State) : EndsInside (execBufrd start s) :=
  checkRange_endsInside fun h => readThen_endsInside (loadByte_readsInside h) fun _ => respond_endsInside _ _

theorem execCobsenc_endsInside (start len : Nat) (s : State) : EndsInside (execCobsenc start len s) := by
  refine checkRange_endsInside fun h => ?_
  split
  · exact raiseFault_endsInside _ _
  · next h2 =>
    exact readThen_endsInside (cobsEncodeAt_readsInside (Nat.le_of_not_lt h2) h) fun _ => respondNone_endsInside _

theorem execCobsdec_endsInside (start len : Nat) (s : State) : EndsInside (execCobsdec start len s) :=
  checkRange_endsInside fun h => readThen_endsInside (cobsDecodeAt_readsInside h) fun _ => respond_endsInside _ _

/-- ADDB stores at `SIZE`, which is below `CAP` unless the buffer is full. -/
theorem execAddb_endsInside (b : Byte) (hsize : s.size.toNat ≤ Config.cap) : EndsInside (execAddb b s) := by
  unfold execAddb
  split
  · exact respond_endsInside _ _
  · next hr =>
    obtain ⟨-, hfull⟩ : s.complete = false ∧ s.full = false := by simpa using hr
    have hne : s.size.toNat ≠ Config.cap := fun h => by simp [full_iff.2 h] at hfull
    rw [if_pos (by omega)]
    exact respond_endsInside _ _

/-- The gates after the decode read the body, the stored CRC behind it, and the header. -/
theorem parseBody_endsInside {n : Nat} (h : 1 + n + 4 ≤ Config.cap) : EndsInside (parseBody n s) := by
  refine readThen_endsInside (loadBytes_readsInside (by omega)) fun body =>
    readThen_endsInside (loadValue_readsInside h) fun stored => ?_
  split
  · exact respond_endsInside _ _
  split
  · exact respond_endsInside _ _
  refine readThen_endsInside (loadByte_readsInside (by decide)) fun sz => ?_
  split
  · exact respond_endsInside _ _
  exact readThen_endsInside (loadByte_readsInside (by decide)) fun id => respond_endsInside _ _

/-- A frame of at least `MIN_FRAME` bytes holds the body and the stored CRC that PARSE reads. -/
theorem parseFrame_endsInside (hsize : s.size.toNat ≤ Config.cap) : EndsInside (parseFrame s) := by
  unfold parseFrame
  split
  · exact respond_endsInside _ _
  next hmin =>
  have hbody : 1 + (s.size.toNat - Config.totalOvh) + 4 ≤ Config.cap := by
    simp only [Config.minFrame, Config.totalOvh, Config.cobsOvh, Config.crcOvh, Config.hdr] at hmin ⊢
    omega
  refine readThen_endsInside (cobsDecodeAt_readsInside (by rwa [Nat.zero_add])) fun d => ?_
  split
  · exact parseBody_endsInside hbody
  · exact respond_endsInside _ _

theorem execParse_endsInside (hsize : s.size.toNat ≤ Config.cap) : EndsInside (execParse s) := by
  unfold execParse
  split
  · exact respond_endsInside _ _
  split
  · exact raiseFault_endsInside _ _
  · exact parseFrame_endsInside hsize

/-- PACKETIZE reads the body after the check of the whole frame's range (44_packet.md R221). -/
theorem execPacketize_endsInside (s : State) : EndsInside (execPacketize s) := by
  refine readThen_endsInside (loadByte_readsInside (by decide)) fun sz => checkRange_endsInside fun h => ?_
  have hlen : frameLength sz.toNat = sz.toNat + Config.hdr + 6 := rfl
  exact readThen_endsInside (loadBytes_readsInside (by omega)) fun body =>
    readThen_endsInside (cobsEncodeAt_readsInside (by omega) h) fun m => respond_endsInside _ _

/-- With `SIZE <= CAP` every command stays inside the buffer. -/
theorem exec_endsInside (i : Instr) (hsize : s.size.toNat ≤ Config.cap) : EndsInside (exec i s) := by
  cases i with
  | reset => exact respondNone_endsInside _
  | addb b => exact execAddb_endsInside b hsize
  | complete | status | curpos => exact respond_endsInside _ _
  | parse => exact execParse_endsInside hsize
  | packetize => exact execPacketize_endsInside s
  | bufrd start => exact execBufrd_endsInside start s
  | bufwr | curopen => exact checkRange_endsInside fun _ => respondNone_endsInside _
  | cobsenc start len => exact execCobsenc_endsInside start len s
  | cobsdec start len => exact execCobsdec_endsInside start len s
  | crc32 | crc16 => exact checkedRead_endsInside
  | put8 | put16 | put32 | put64 => exact cursorWrite_endsInside _ _ s
  | getu8 | getu16 | getu32 | get64 | gets8 | gets16 | gets32 => exact cursorRead_endsInside _ _ s

/-- So does every transaction: a turned-away word, an illegal word and an executed command. -/
theorem issue_endsInside (w : CommandWord) (d : Data) (hsize : s.size.toNat ≤ Config.cap) : EndsInside (issue w d s) := by
  unfold issue
  split
  · split
    · exact exec_endsInside _ hsize
    · exact respondNone_endsInside s
  · split
    · exact exec_endsInside _ hsize
    · exact raiseFault_endsInside _ s

end

/-- Settles O14, by cases on the host's next event: the invariant's `SIZE <= CAP` is what ADDB and PARSE rely on. -/
theorem invariantStatesStayInsideTheBuffer : Obligations.InvariantStatesStayInsideTheBuffer := by
  intro s h
  unfold step serveHost
  split
  · exact .inl ⟨s, rfl⟩
  · exact issue_endsInside _ _ h.size_le
  · exact .inl ⟨_, rfl⟩

end Sys2Proof.Machine
end

section
/-! SUPPORT. Several blocks (60_exceptions.md R262): a step of one block, taken apart. -/

namespace Sys2Proof.Machine

/-- Block `k` takes a step exactly when it exists and its own step answers, and then only its own entry changes. -/
theorem stepChannel_eq_some {k : Nat} {blocks blocks' : List State} :
    stepChannel k blocks = some blocks' ↔
      ∃ s t, blocks[k]? = some s ∧ step s = .next t ∧ blocks' = blocks.set k t := by
  unfold stepChannel
  cases hs : blocks[k]? with
  | none => simp
  | some s => cases ht : step s <;> simp [ht, eq_comm]

/-- Settles O60: block `k`'s entry, and nothing else of the list, decides the entry that replaces it. -/
theorem channelsAreIndependent : Obligations.ChannelsAreIndependent := by
  intro k blocks blocks' h
  obtain ⟨s, t, hs, ht, rfl⟩ := stepChannel_eq_some.1 h
  have entry_set {l : List State} (hl : l[k]? = some s) : (l.set k t)[k]? = some t :=
    List.getElem?_set_self (List.getElem?_eq_some_iff.1 hl).1
  refine ⟨fun j hj => List.getElem?_set_ne hj.symm, fun others ho => ?_⟩
  have hothers : others[k]? = some s := ho.trans hs
  exact ⟨others.set k t, stepChannel_eq_some.2 ⟨s, t, hothers, ht, rfl⟩, (entry_set hothers).trans (entry_set hs).symm⟩

end Sys2Proof.Machine
end

section
/-! SUPPORT. The decoder (30_encoding.md R81 to R86). A transaction decodes to a command exactly when its word carries the
command's row and the command's operands are the ones read from the transaction (`decode_eq_ok`). -/

namespace Sys2Proof.Machine

open Laws.EncodedFields (Carries Statement rowOf bitField_wordOf modeBits_lt fits)

/-- The command with its operands replaced by the ones the word and DATA hold (30_encoding.md R82). -/
def readOperands (w : CommandWord) (d : Data) : Instr → Instr
  | .addb _ => .addb (d.setWidth 8)
  | .bufrd _ => .bufrd (startOf w)
  | .bufwr _ _ => .bufwr (startOf w) (d.setWidth 8)
  | .cobsenc _ _ => .cobsenc (startOf w) (lenOf w)
  | .cobsdec _ _ => .cobsdec (startOf w) (lenOf w)
  | .crc32 _ _ => .crc32 (startOf w) (lenOf w)
  | .crc16 _ _ _ => .crc16 (startOf w) (lenOf w) (d.setWidth 16)
  | .curopen _ _ _ => .curopen (startOf w) (modeR w) (modeW w)
  | .put8 _ => .put8 (d.setWidth 8)
  | .put16 _ => .put16 (d.setWidth 16)
  | .put32 _ => .put32 (d.setWidth 32)
  | .put64 _ => .put64 d
  | i => i

section

variable {w : CommandWord} {d d' : Data} {i : Instr} {l : Layout} {op : Nat} {r r' : OpcodeRow}

/-! ### The rows -/

/-- The facts of Laws/PerInstr.lean, for every command. -/
theorem statement_of_instr : ∀ i : Instr, Statement i
  | .reset => Laws.EncodedFields.reset
  | .addb b => Laws.EncodedFields.addb b
  | .complete => Laws.EncodedFields.complete
  | .status => Laws.EncodedFields.status
  | .parse => Laws.EncodedFields.parse
  | .packetize => Laws.EncodedFields.packetize
  | .bufrd start => Laws.EncodedFields.bufrd start
  | .bufwr start b => Laws.EncodedFields.bufwr start b
  | .cobsenc start len => Laws.EncodedFields.cobsenc start len
  | .cobsdec start len => Laws.EncodedFields.cobsdec start len
  | .crc32 start len => Laws.EncodedFields.crc32 start len
  | .crc16 start len seed => Laws.EncodedFields.crc16 start len seed
  | .curopen start r w => Laws.EncodedFields.curopen start r w
  | .curpos => Laws.EncodedFields.curpos
  | .put8 v => Laws.EncodedFields.put8 v
  | .put16 v => Laws.EncodedFields.put16 v
  | .put32 v => Laws.EncodedFields.put32 v
  | .put64 v => Laws.EncodedFields.put64 v
  | .getu8 => Laws.EncodedFields.getu8
  | .getu16 => Laws.EncodedFields.getu16
  | .getu32 => Laws.EncodedFields.getu32
  | .get64 => Laws.EncodedFields.get64
  | .gets8 => Laws.EncodedFields.gets8
  | .gets16 => Laws.EncodedFields.gets16
  | .gets32 => Laws.EncodedFields.gets32

/-- An OP stands in one row only. -/
theorem eq_of_op_eq (hr : r ∈ opcodeTable) (hr' : r' ∈ opcodeTable) (h : r.op = r'.op) : r = r' := by
  have hnodup : (opcodeTable.map OpcodeRow.op).Nodup := by decide
  exact List.inj_on_of_nodup_map hnodup hr hr' h

/-! ### The opcode map -/

/-- OP alone decides the row; the word and DATA give the operands only. -/
theorem opcodeRow_eq_map (op : Nat) (w w' : CommandWord) (d d' : Data) :
    opcodeRow op w' d' = (opcodeRow op w d).map (Prod.map id (readOperands w' d')) := by
  unfold opcodeRow
  split <;> rfl

/-- The map sends a command's OP to the command's row. -/
theorem opcodeRow_rowOf (i : Instr) (w : CommandWord) (d : Data) :
    opcodeRow (rowOf i).op w d = some ((rowOf i).layout, readOperands w d i) := by
  cases i <;> rfl

/-- The map gives only commands of the row it selects. -/
theorem rowOf_of_opcodeRow (h : opcodeRow op w d = some (l, i)) : (rowOf i).op = op ∧ (rowOf i).layout = l := by
  unfold opcodeRow at h
  split at h <;> cases h <;> exact ⟨rfl, rfl⟩

theorem opcodeRow_eq_some :
    opcodeRow op w d = some (l, i) ↔ (rowOf i).op = op ∧ (rowOf i).layout = l ∧ readOperands w d i = i := by
  constructor
  · intro h
    obtain ⟨rfl, rfl⟩ := rowOf_of_opcodeRow h
    rw [opcodeRow_rowOf] at h
    exact ⟨rfl, rfl, congrArg Prod.snd (Option.some.inj h)⟩
  · rintro ⟨rfl, rfl, hi⟩
    rw [opcodeRow_rowOf, hi]

/-- Every row of the table is a row of the map. -/
theorem exists_opcodeRow_of_mem (hr : r ∈ opcodeTable) (w : CommandWord) (d : Data) :
    ∃ i, opcodeRow r.op w d = some (r.layout, i) := by
  have hall : ∀ r ∈ opcodeTable, (opcodeRow r.op 0 0).map Prod.fst = some r.layout := by decide
  obtain ⟨⟨l, i⟩, hrow, rfl⟩ := Option.map_eq_some_iff.1 (hall r hr)
  exact ⟨readOperands w d i, by rw [opcodeRow_eq_map r.op 0 w 0 d, hrow]; rfl⟩

/-! ### Decoding -/

theorem decode_eq_ok_iff_row :
    decode w d = .ok i ↔ ∃ l, opcodeRow (opOf w) w d = some (l, i) ∧ rsvOf w = 0 ∧ unusedFieldsZero l w = true := by
  unfold decode
  cases opcodeRow (opOf w) w d with
  | none => simp
  | some p =>
    obtain ⟨l, j⟩ := p
    dsimp only
    split_ifs <;> simp_all

/-- A transaction decodes to `i` exactly when its word carries the row of `i` and the operands of `i` are its own. -/
theorem decode_eq_ok :
    decode w d = .ok i ↔ Carries (rowOf i).op (rowOf i).layout w ∧ readOperands w d i = i := by
  simp only [decode_eq_ok_iff_row, opcodeRow_eq_some, Carries]
  constructor
  · rintro ⟨l, ⟨hop, rfl, hi⟩, hrsv, hz⟩
    exact ⟨⟨hop.symm, hrsv, hz⟩, hi⟩
  · rintro ⟨⟨hop, hrsv, hz⟩, hi⟩
    exact ⟨_, ⟨hop.symm, rfl, hi⟩, hrsv, hz⟩

/-- The row of a decoded command is one of the table's, and the word carries it. -/
theorem row_of_decode_eq_ok (h : decode w d = .ok i) :
    rowOf i ∈ opcodeTable ∧ Carries (rowOf i).op (rowOf i).layout w :=
  ⟨(statement_of_instr i).1, (decode_eq_ok.1 h).1⟩

/-- DATA decides neither whether a word is legal nor its row, only the operands that DATA holds. -/
theorem decode_eq_map (w : CommandWord) (d d' : Data) : decode w d' = (decode w d).map (readOperands w d') := by
  unfold decode
  rw [opcodeRow_eq_map (opOf w) w w d d']
  cases opcodeRow (opOf w) w d with
  | none => rfl
  | some p =>
    dsimp only [Option.map, Prod.map, id]
    split_ifs <;> rfl

/-! ### The fields of the command word -/

theorem startOf_lt (w : CommandWord) : startOf w < 512 := Nat.mod_lt _ (by decide)

theorem lenOf_lt (w : CommandWord) : lenOf w < 512 := Nat.mod_lt _ (by decide)

theorem modeOf_lt (w : CommandWord) : modeOf w < 4 := Nat.mod_lt _ (by decide)

theorem modeBits_mode (w : CommandWord) : modeBits (modeR w) (modeW w) = modeOf w := by
  have hlt := modeOf_lt w
  have bit_toNat (n : Nat) : (decide (n % 2 = 1)).toNat = n % 2 := by
    rcases Nat.mod_two_eq_zero_or_one n with h | h <;> simp [h]
  rw [modeBits, modeR, modeW, bit_toNat, bit_toNat]
  omega

/-- A word whose RSV is 0 is put together from its other fields. -/
theorem wordOf_fields (hrsv : rsvOf w = 0) : wordOf (opOf w) (startOf w) (lenOf w) (modeOf w) = w := by
  have hw := w.isLt
  apply BitVec.eq_of_toNat_eq
  simp only [rsvOf, bitField] at hrsv
  simp only [wordOf, opOf, startOf, lenOf, modeOf, bitField, BitVec.toNat_ofNat]
  omega

section

variable {start len mode : Nat}

/-- The three operand fields of a word are the numbers it was put together from, where these fit. -/
theorem fields_wordOf (hop : op < 256) (hs : start < 512) (hl : len < 512) (hm : mode < 4) :
    startOf (wordOf op start len mode) = start ∧ lenOf (wordOf op start len mode) = len ∧
      modeOf (wordOf op start len mode) = mode := by
  have hlt : op + start * 2 ^ 8 + len * 2 ^ 17 + mode * 2 ^ 26 < 2 ^ 32 := by omega
  simp only [startOf, lenOf, modeOf, bitField_wordOf hlt]
  omega

end

/-- MODE of a CUROPEN word gives back the two bits it was made of. -/
theorem mode_wordOf {start : Nat} (hop : op < 256) (hs : start < 512) (r m : Bool) :
    modeR (wordOf op start 0 (modeBits r m)) = r ∧ modeW (wordOf op start 0 (modeBits r m)) = m := by
  obtain ⟨-, -, hmode⟩ := fields_wordOf hop hs (len := 0) (by decide) (modeBits_lt r m)
  rw [modeR, modeW, hmode]
  cases r <;> cases m <;> decide

/-! ### The encoder -/

/-- A well-formed command's operands are read back from its own transaction. -/
theorem readOperands_encode (h : i.wellFormed = true) : readOperands (encode i).1 (encode i).2 i = i := by
  cases i with
  | reset | complete | status | parse | packetize | curpos => rfl
  | getu8 | getu16 | getu32 | get64 | gets8 | gets16 | gets32 => rfl
  | addb | put8 | put16 | put32 | put64 => simp [encode, readOperands]
  | bufrd s | bufwr s =>
    have hs : s < 512 := fits h
    simp [encode, readOperands, fields_wordOf, hs]
  | cobsenc s n | cobsdec s n | crc32 s n | crc16 s n =>
    obtain ⟨hs, hn⟩ : s < 512 ∧ n < 512 := by simpa [Instr.wellFormed] using h
    simp [encode, readOperands, fields_wordOf, hs, hn]
  | curopen s r m =>
    have hs : s < 512 := fits h
    simp [encode, readOperands, fields_wordOf, mode_wordOf, modeBits_lt, hs]

/-- Operands read from a word fit their fields. -/
theorem wellFormed_readOperands (w : CommandWord) (d : Data) (i : Instr) : (readOperands w d i).wellFormed = true := by
  cases i <;> simp [readOperands, Instr.wellFormed, startOf_lt, lenOf_lt]

/-- A word that carries a command's row is the word of that command with the operands read from it. -/
theorem encode_readOperands (h : Carries (rowOf i).op (rowOf i).layout w) : (encode (readOperands w d i)).1 = w := by
  obtain ⟨hop, hrsv, hz⟩ := h
  have hw := wordOf_fields hrsv
  rw [hop] at hw
  cases i with
  | bufrd | bufwr =>
    obtain ⟨hlen, hmode⟩ : lenOf w = 0 ∧ modeOf w = 0 := by simpa [rowOf, unusedFieldsZero] using hz
    rw [hlen, hmode] at hw
    exact hw
  | cobsenc | cobsdec | crc32 | crc16 =>
    have hmode : modeOf w = 0 := by simpa [rowOf, unusedFieldsZero] using hz
    rw [hmode] at hw
    exact hw
  | curopen =>
    have hlen : lenOf w = 0 := by simpa [rowOf, unusedFieldsZero] using hz
    rw [hlen, ← modeBits_mode] at hw
    exact hw
  | _ =>
    obtain ⟨⟨hstart, hlen⟩, hmode⟩ : (startOf w = 0 ∧ lenOf w = 0) ∧ modeOf w = 0 := by
      simpa [rowOf, unusedFieldsZero] using hz
    rw [hstart, hlen, hmode] at hw
    exact hw

/-- Of DATA a command reads only the low bits it uses (30_encoding.md R82). -/
theorem readOperands_congr (h : d'.toNat % 2 ^ dataBitsUsed i = d.toNat % 2 ^ dataBitsUsed i) :
    readOperands w d' i = readOperands w d i := by
  have hd : d'.setWidth (dataBitsUsed i) = d.setWidth (dataBitsUsed i) :=
    BitVec.eq_of_toNat_eq (by simpa only [BitVec.toNat_setWidth] using h)
  cases i with
  | addb | bufwr | put8 | crc16 | put16 | put32 | put64 => simpa [readOperands, dataBitsUsed] using hd
  | _ => rfl

end

/-- Settles O1: the word of a well-formed command carries its row, and its operands are read back. -/
theorem encodedCommandDecodesToItself : Obligations.EncodedCommandDecodesToItself :=
  fun i h => decode_eq_ok.2 ⟨(statement_of_instr i).2 h, readOperands_encode h⟩

/-- Settles O2: a decoded command's operands are the word's own fields, and its other fields are 0. -/
theorem legalWordIsItsCommandsEncoding : Obligations.LegalWordIsItsCommandsEncoding := by
  intro w d i h
  obtain ⟨hc, hi⟩ := decode_eq_ok.1 h
  have hwf := wellFormed_readOperands w d i
  have henc := encode_readOperands (d := d) hc
  rw [hi] at hwf henc
  exact ⟨hwf, henc⟩

/-- Settles O5: another DATA gives the same answer with the operands read from it, and a command's operands are read from the
bits it uses. -/
theorem ignoredDataBitsChangeNothing : Obligations.IgnoredDataBitsChangeNothing := by
  intro w d d'
  refine ⟨fun e h => ?_, fun i h hd => ?_⟩
  · rw [decode_eq_map w d d', h]
    rfl
  · obtain ⟨hc, hi⟩ := decode_eq_ok.1 h
    exact decode_eq_ok.2 ⟨hc, (readOperands_congr hd).trans hi⟩

/-- Settles O6, by running the decoder on the seven words. -/
theorem listedWordsDecode : Obligations.ListedWordsDecode := by
  unfold Obligations.ListedWordsDecode
  decide

end Sys2Proof.Machine
end

section
/-! SUPPORT. The rows as masks and matches (30_encoding.md R84): a word matches a row exactly when it carries the row. A mask
keeps whole fields, so both sides say that the word agrees with the bare OP at the bits of the masked fields. -/

namespace Sys2Proof.Machine

open Laws.EncodedFields (Carries rowOf)

section

variable {v x lo width : Nat}

/-- Two numbers agree in a field exactly when they agree at each of its bits. -/
theorem bitField_congr :
    bitField v lo width = bitField x lo width ↔ ∀ i, lo ≤ i → i < lo + width → v.testBit i = x.testBit i := by
  constructor
  · intro h i hlo hi
    have hbit := congrArg (·.testBit (i - lo)) h
    simpa [bitField, Nat.testBit_mod_two_pow, Nat.testBit_div_two_pow, show i - lo < width by omega,
      Nat.sub_add_cancel hlo] using hbit
  · intro h
    apply Nat.eq_of_testBit_eq
    intro k
    by_cases hk : k < width
    · simp [bitField, Nat.testBit_mod_two_pow, Nat.testBit_div_two_pow, hk, h (k + lo) (by omega) (by omega)]
    · simp [bitField, Nat.testBit_mod_two_pow, hk]

end

/-- The fields of a row's mask, as (low bit, width): OP, RSV and the fields the layout does not use (30_encoding.md R84). -/
def maskedFields : Layout → List (Nat × Nat)
  | .cmd          => [(0, 8), (28, 4), (8, 9), (17, 9), (26, 2)]
  | .cmdStart     => [(0, 8), (28, 4), (17, 9), (26, 2)]
  | .cmdStartLen  => [(0, 8), (28, 4), (26, 2)]
  | .cmdStartMode => [(0, 8), (28, 4), (17, 9)]

/-- A bit lies in the field `f`. -/
abbrev InField (f : Nat × Nat) (i : Nat) : Prop := f.1 ≤ i ∧ i < f.1 + f.2

section

variable {r : OpcodeRow} {w : CommandWord} {d : Data} {l : Layout} {op : Nat}

/-- The mask keeps the bits of these fields. -/
theorem mask_getLsbD_iff (r : OpcodeRow) : ∀ i < 32, r.mask.getLsbD i = true ↔ ∃ f ∈ maskedFields r.layout, InField f i := by
  unfold OpcodeRow.mask
  cases r.layout <;> decide

theorem maskedFields_end_le : ∀ f ∈ maskedFields l, f.1 + f.2 ≤ 32 := by cases l <;> decide

theorem op_mem_maskedFields (l : Layout) : (0, 8) ∈ maskedFields l := by cases l <;> decide

/-- An OP of 8 bits is all of its lowest field, and has no bit in the others. -/
theorem bitField_op (hop : op < 2 ^ 8) : bitField op 0 8 = op := by
  rw [bitField, Nat.pow_zero, Nat.div_one, Nat.mod_eq_of_lt hop]

theorem bitField_op_above {lo : Nat} (hop : op < 2 ^ 8) (hlo : 8 ≤ lo) (width : Nat) : bitField op lo width = 0 := by
  rw [bitField, Nat.div_eq_of_lt (hop.trans_le (Nat.pow_le_pow_right (by decide) hlo)), Nat.zero_mod]

/-- A word carries a row exactly when it agrees with the bare OP in the row's masked fields. -/
theorem carries_iff_bitField (hop : op < 2 ^ 8) :
    Carries op l w ↔ ∀ f ∈ maskedFields l, bitField w.toNat f.1 f.2 = bitField op f.1 f.2 := by
  cases l <;>
    simp [Carries, unusedFieldsZero, maskedFields, opOf, rsvOf, startOf, lenOf, modeOf, bitField_op hop,
      bitField_op_above hop, and_assoc]

/-- Mask and match compare a word with the bare OP at the bits the mask keeps: the OP has no others. -/
theorem and_mask_eq_iff_testBit (hop : r.op < 2 ^ 8) :
    w &&& r.mask = r.matchWord ↔ ∀ i < 32, r.mask.getLsbD i = true → w.toNat.testBit i = r.op.testBit i := by
  have hbits : ∀ i < 32, (w &&& r.mask).getLsbD i = r.matchWord.getLsbD i ↔
      (r.mask.getLsbD i = true → w.toNat.testBit i = r.op.testBit i) := by
    intro i hi
    rw [BitVec.getLsbD_and, OpcodeRow.matchWord, BitVec.getLsbD_ofNat]
    cases hm : r.mask.getLsbD i with
    | true => simp [hi, BitVec.getLsbD]
    | false =>
      have h8 : 8 ≤ i := by
        by_contra hlt
        have hkept := (mask_getLsbD_iff r i hi).2 ⟨_, op_mem_maskedFields _, Nat.zero_le i, by omega⟩
        simp [hm] at hkept
      have hoff : r.op.testBit i = false :=
        Nat.testBit_lt_two_pow (hop.trans_le (Nat.pow_le_pow_right (by decide) h8))
      simp [hoff]
  rw [BitVec.eq_of_getLsbD_eq_iff]
  exact forall₂_congr hbits

/-- Mask and match say what R85 says field by field. -/
theorem and_mask_eq_iff_carries (hop : r.op < 2 ^ 8) : w &&& r.mask = r.matchWord ↔ Carries r.op r.layout w := by
  rw [and_mask_eq_iff_testBit hop, carries_iff_bitField hop]
  simp only [bitField_congr]
  constructor
  · intro h f hf i hlo hi
    have hi32 : i < 32 := hi.trans_le (maskedFields_end_le f hf)
    exact h i hi32 ((mask_getLsbD_iff r i hi32).2 ⟨f, hf, hlo, hi⟩)
  · intro h i hi hm
    obtain ⟨f, hf, hlo, hhi⟩ := (mask_getLsbD_iff r i hi).1 hm
    exact h f hf i hlo hhi

theorem op_lt_of_mem (hr : r ∈ opcodeTable) : r.op < 2 ^ 8 := by
  have hall : ∀ r ∈ opcodeTable, r.op < 2 ^ 8 := by decide
  exact hall r hr

/-- A word that carries a row decodes to a command. -/
theorem exists_decode_of_carries (hr : r ∈ opcodeTable) (h : Carries r.op r.layout w) : ∃ i, decode w d = .ok i := by
  obtain ⟨hop, hrsv, hz⟩ := h
  obtain ⟨i, hi⟩ := exists_opcodeRow_of_mem hr w d
  exact ⟨i, decode_eq_ok_iff_row.2 ⟨r.layout, by rwa [hop], hrsv, hz⟩⟩

end

/-- Settles O3: mask and match say that the word carries the row. -/
theorem decodesExactlyTheWordsThatMatchARow : Obligations.DecodesExactlyTheWordsThatMatchARow := by
  intro w d
  constructor
  · rintro ⟨i, h⟩
    obtain ⟨hmem, hc⟩ := row_of_decode_eq_ok h
    exact ⟨rowOf i, hmem, (and_mask_eq_iff_carries (op_lt_of_mem hmem)).2 hc⟩
  · rintro ⟨r, hr, h⟩
    exact exists_decode_of_carries hr ((and_mask_eq_iff_carries (op_lt_of_mem hr)).1 h)

/-- Settles O4: both rows have the word's OP, and an OP stands in one row only. -/
theorem noTwoRowsMatchTheSameWord : Obligations.NoTwoRowsMatchTheSameWord := by
  intro r hr r' hr' w h h'
  obtain ⟨hop, -⟩ := (and_mask_eq_iff_carries (op_lt_of_mem hr)).1 (eq_of_beq h)
  obtain ⟨hop', -⟩ := (and_mask_eq_iff_carries (op_lt_of_mem hr')).1 (eq_of_beq h')
  exact eq_of_op_eq hr hr' (hop.symm.trans hop')

end Sys2Proof.Machine
end

section
/-! SUPPORT. A step on a transaction with no fault recorded (30_encoding.md R84, R85): a word that decodes runs its command, and
one that does not takes `ILLEGAL_COMMAND`. -/

namespace Sys2Proof.Machine

section

variable {s : State} {w : CommandWord} {d : Data} {rest : List HostEvent}

theorem step_command (hev : s.hostEvents = .command w d :: rest) : step s = issue w d (Presented s rest) := by
  unfold step serveHost
  rw [hev]
  rfl

theorem issue_of_decode_ok {i : Instr} (hf : s.fault = false) (h : decode w d = .ok i) : issue w d s = exec i s := by
  simp [issue, hf, h]

theorem issue_of_decode_error {e : Illegal} (hf : s.fault = false) (h : decode w d = .error e) :
    issue w d s = .next (FaultTaken .illegalCommand s) := by
  simp only [issue, hf, h]
  rfl

end

/-- The OPs outside the table (30_encoding.md R85 (a)). -/
abbrev Unassigned (op : Nat) : Prop :=
  op = 0x00 ∨ op = 0x07 ∨ (0x0A ≤ op ∧ op ≤ 0x0F) ∨ (0x12 ≤ op ∧ op ≤ 0x17) ∨ (0x1A ≤ op ∧ op ≤ 0x1F) ∨
    (0x22 ≤ op ∧ op ≤ 0x27) ∨ (0x2C ≤ op ∧ op ≤ 0x2F) ∨ (0x37 ≤ op ∧ op ≤ 0xFF)

theorem not_unassigned_of_mem {r : OpcodeRow} (hr : r ∈ opcodeTable) : ¬ Unassigned r.op := by
  have hall : ∀ r ∈ opcodeTable, ¬ Unassigned r.op := by decide
  exact hall r hr

/-- No word with one of the three marks of R85 decodes to a command. -/
theorem decode_ne_ok_of_illegal {w : CommandWord} {d : Data} {i : Instr}
    (h : Unassigned (opOf w) ∨ rsvOf w ≠ 0 ∨ ∃ r ∈ opcodeTable, r.op = opOf w ∧ unusedFieldsZero r.layout w = false) :
    decode w d ≠ .ok i := by
  intro hok
  obtain ⟨hmem, hop, hrsv, hz⟩ := row_of_decode_eq_ok hok
  obtain hun | hne | ⟨r, hr, hrop, hnz⟩ := h
  · exact not_unassigned_of_mem hmem (hop ▸ hun)
  · exact hne hrsv
  · rw [eq_of_op_eq hr hmem (hrop.trans hop), hz] at hnz
    cases hnz

/-- Settles O7: a word with one of the marks of R85 does not decode, and a word that does not decode takes the fault. -/
theorem illegalWordRaisesIllegalCommand : Obligations.IllegalWordRaisesIllegalCommand := by
  intro s w d rest hf hev h
  rw [step_command hev]
  cases hd : decode w d with
  | ok i => exact absurd hd (decode_ne_ok_of_illegal h)
  | error e => exact issue_of_decode_error hf hd

/-- Settles O8: with no fault recorded the gate of R84 lets the decoded command run. -/
theorem stepRunsTheDecodedCommand : Obligations.StepRunsTheDecodedCommand := by
  intro s w d rest i hf hev h
  rw [step_command hev]
  exact issue_of_decode_ok hf h

end Sys2Proof.Machine
end

section
/-! SUPPORT. The cursor and its enabled accesses (40_primitive_codec.md R101 to R128): what opening it answers, what a write
stores and leaves, what a read responds and leaves, and a value read back from where it was written. -/

namespace Sys2Proof.Machine

section

variable {s t : State} {i : Instr} {a w v : Nat} {ext : Nat → Data}

/-! ### Opening the cursor -/

theorem execCuropen_of_le (s : State) (r m : Bool) (h : a ≤ Config.cap) :
    exec (.curopen a r m) s = .next ((s.openCursor (BitVec.ofNat 9 a) r m).answer none) :=
  checkRange_of_le h

/-- A cursor just opened at `a` makes its next access there. -/
theorem cursorAddr_openCursor (s : State) (r m : Bool) (h : a ≤ Config.cap) :
    cursorAddr (s.openCursor (BitVec.ofNat 9 a) r m) = a := by
  simp [cursorAddr, toNat_ofNat_of_le_cap h]

/-! ### Disabled and enabled accesses -/

theorem cursorWrite_disabled (hw : s.curW = false) : cursorWrite w v s = .next (Answered none s) :=
  cursorWrite_next.2 (.inl ⟨hw, rfl⟩)

theorem cursorRead_disabled (hr : s.curR = false) : cursorRead w ext s = .next (Answered none s) :=
  cursorRead_next.2 (.inl ⟨hr, rfl⟩)

theorem cursorWrite_inside (hw : s.curW = true) (hcap : cursorAddr s + w ≤ Config.cap) :
    cursorWrite w v s = .next (((s.setBuf (storeValue s.buf (cursorAddr s) w v)).advanceCursor w).answer none) :=
  cursorWrite_next.2 (.inr (.inl ⟨hw, hcap, rfl⟩))

theorem cursorRead_inside (hr : s.curR = true) (hcap : cursorAddr s + w ≤ Config.cap)
    (hv : loadValue s.buf (cursorAddr s) w = .ok v) :
    cursorRead w ext s = .next ((s.advanceCursor w).answer (some (ext v))) :=
  cursorRead_next.2 (.inr (.inl ⟨hr, hcap, v, hv, rfl⟩))

/-- An enabled access leaves every register but `CUR_POS`; `m` is the buffer it leaves. -/
theorem access_frame (s : State) (m : Memory) (n : Nat) (r : Response) :
    KeepsFramer s (((s.setBuf m).advanceCursor n).answer r) ∧ KeepsCursorButPos s (((s.setBuf m).advanceCursor n).answer r) ∧
      KeepsHost s (((s.setBuf m).advanceCursor n).answer r) ∧ KeepsFault s (((s.setBuf m).advanceCursor n).answer r) :=
  ⟨⟨rfl, rfl, rfl⟩, ⟨rfl, rfl, rfl⟩, ⟨rfl, rfl⟩, ⟨rfl, rfl⟩⟩

/-- An access inside the buffer moves the position by its width. -/
theorem toNat_curPos_advance (hcap : cursorAddr s + w ≤ Config.cap) :
    (s.curPos + BitVec.ofNat 9 w).toNat = s.curPos.toNat + w :=
  toNat_advance (by unfold cursorAddr at hcap; omega)

theorem KeepsCursor.butPos (h : KeepsCursor s t) : KeepsCursorButPos s t := by
  obtain ⟨hbase, -, hr, hw⟩ := h
  exact ⟨hbase, hr, hw⟩

/-! ### Frames -/

theorem cursorRead_frame (h : cursorRead w ext s = .next t) :
    KeepsBytes s t ∧ KeepsFramer s t ∧ KeepsCursorButPos s t ∧ KeepsHost s t ∧ KeepsFaultOr .capacityViolation s t := by
  obtain ⟨-, rfl⟩ | ⟨-, -, v, -, rfl⟩ | ⟨-, -, rfl⟩ := cursorRead_next.1 h
  case inl =>
    obtain ⟨hbytes, hframer, hcursor, hhost, hfault⟩ := answer_frame s none
    exact ⟨hbytes, hframer, hcursor.butPos, hhost, .inl hfault⟩
  case inr.inl =>
    obtain ⟨hframer, hcursor, hhost, hfault⟩ := access_frame s s.buf w (some (ext v))
    exact ⟨fun _ => rfl, hframer, hcursor, hhost, .inl hfault⟩
  case inr.inr =>
    obtain ⟨hbytes, hframer, hcursor, hhost, hfault⟩ := faultTaken_frame s .capacityViolation
    exact ⟨hbytes, hframer, hcursor.butPos, hhost, hfault⟩

/-- A value stored inside the buffer leaves the bytes outside its range alone. -/
theorem byteAt_storeValue_outside {m : Memory} {i : Nat} (hcap : a + w ≤ Config.cap) (hi : i < a ∨ a + w ≤ i) :
    byteAt (storeValue m a w v) i = byteAt m i := by
  rw [storeValue, byteAt_storeBytes (by rwa [length_leBytes]), length_leBytes, if_neg (by omega)]

theorem cursorWrite_frame (h : cursorWrite w v s = .next t) :
    KeepsBytesOutside (cursorAddr s) w s t ∧ (s.curW = false ∨ Config.cap < cursorAddr s + w → KeepsBytes s t) ∧
    KeepsFramer s t ∧ KeepsCursorButPos s t ∧ KeepsHost s t ∧ KeepsFaultOr .capacityViolation s t := by
  obtain ⟨-, rfl⟩ | ⟨hw, hcap, rfl⟩ | ⟨-, -, rfl⟩ := cursorWrite_next.1 h
  case inl =>
    obtain ⟨hbytes, hframer, hcursor, hhost, hfault⟩ := answer_frame s none
    exact ⟨fun i _ => hbytes i, fun _ => hbytes, hframer, hcursor.butPos, hhost, .inl hfault⟩
  case inr.inl =>
    obtain ⟨hframer, hcursor, hhost, hfault⟩ := access_frame s (storeValue s.buf (cursorAddr s) w v) w none
    have henabled : ¬(s.curW = false ∨ Config.cap < cursorAddr s + w) := by simp [hw, hcap]
    exact ⟨fun _ hi => byteAt_storeValue_outside hcap hi, fun hoff => absurd hoff henabled, hframer, hcursor, hhost,
      .inl hfault⟩
  case inr.inr =>
    obtain ⟨hbytes, hframer, hcursor, hhost, hfault⟩ := faultTaken_frame s .capacityViolation
    exact ⟨fun i _ => hbytes i, fun _ => hbytes, hframer, hcursor.butPos, hhost, hfault⟩

/-! ### What a write stores -/

/-- Byte `k` of a stored value is `v[8k+7:8k]` (00_scope.md R17). -/
theorem byteAt_storeValue {m : Memory} {d : Data} {k : Nat} (hcap : a + w ≤ Config.cap) (hk : k < w) :
    byteAt (storeValue m a w d.toNat) (a + k) = some (d.extractLsb' (8 * k) 8) := by
  have hlen : k < (leBytes w d.toNat).length := by rwa [length_leBytes]
  have hbyte : BitVec.ofNat 8 (d.toNat / 256 ^ k) = d.extractLsb' (8 * k) 8 := by
    rw [BitVec.extractLsb', Nat.shiftRight_eq_div_pow, Nat.pow_mul]
  rw [storeValue, byteAt_storeBytes (by rwa [length_leBytes]), length_leBytes, if_pos (by omega), Nat.add_sub_cancel_left,
    List.getElem?_eq_getElem hlen, getElem_leBytes, hbyte]

/-- A command that is the cursor write of `d` stores `d`. -/
theorem putStores_of_exec {d : Data} (hi : exec i s = cursorWrite w d.toNat s) : PutStores i w d s := by
  intro hw hcap
  obtain ⟨hframer, hcursor, hhost, hfault⟩ := access_frame s (storeValue s.buf (cursorAddr s) w d.toNat) w none
  exact ⟨_, hi.trans (cursorWrite_inside hw hcap), fun k hk => byteAt_storeValue hcap hk,
    fun _ hout => byteAt_storeValue_outside hcap hout, toNat_curPos_advance hcap, hcursor, rfl, hframer, hfault, hhost⟩

/-! ### What a read responds -/

/-- A command that is the cursor read of as many bytes as `bs` has responds the value of `bs`, widened. -/
theorem getResponds_of_exec {bs : List Byte} {d : Data} (hi : exec i s = cursorRead bs.length ext s)
    (hd : ext (leValue bs) = d) : GetResponds i bs d s := by
  intro hr hcap hbs
  have hload : loadValue s.buf (cursorAddr s) bs.length = .ok (leValue bs) :=
    loadValue_eq_ok.2 ⟨bs, loadBytes_of_holds hcap hbs, rfl⟩
  obtain ⟨hframer, hcursor, hhost, hfault⟩ := access_frame s s.buf bs.length (some (ext (leValue bs)))
  exact ⟨_, hi.trans (cursorRead_inside hr hcap hload), by rw [hd]; rfl, toNat_curPos_advance hcap, hcursor, fun _ => rfl,
    hframer, hfault, hhost⟩

/-- Joining bytes with the lowest index lowest makes their little-endian value. -/
theorem toNat_append_byte {n : Nat} {x : BitVec n} {bs : List Byte} (h : x.toNat = leValue bs) (b : Byte) :
    (x ++ b).toNat = leValue (b :: bs) := by
  rw [BitVec.toNat_append, ← Nat.shiftLeft_add_eq_or_of_lt b.isLt, Nat.shiftLeft_eq, h, leValue]
  omega

theorem toNat_one_byte (b0 : Byte) : b0.toNat = leValue [b0] := rfl

theorem toNat_two_bytes (b1 b0 : Byte) : (b1 ++ b0).toNat = leValue [b0, b1] :=
  toNat_append_byte (toNat_one_byte b1) b0

theorem toNat_four_bytes (b3 b2 b1 b0 : Byte) : (b3 ++ b2 ++ b1 ++ b0).toNat = leValue [b0, b1, b2, b3] :=
  toNat_append_byte (toNat_append_byte (toNat_two_bytes b3 b2) b1) b0

theorem toNat_eight_bytes (b7 b6 b5 b4 b3 b2 b1 b0 : Byte) :
    (b7 ++ b6 ++ b5 ++ b4 ++ b3 ++ b2 ++ b1 ++ b0).toNat = leValue [b0, b1, b2, b3, b4, b5, b6, b7] :=
  toNat_append_byte (toNat_append_byte (toNat_append_byte (toNat_append_byte (toNat_four_bytes b7 b6 b5 b4) b3) b2) b1) b0

theorem zext64_of_toNat_eq {n : Nat} {x : BitVec n} (h : x.toNat = v) : zext64 v = x.setWidth 64 := by
  rw [zext64, ← h, BitVec.ofNat_toNat]

theorem sext64_of_toNat_eq {x : BitVec (8 * w)} (h : x.toNat = v) : sext64 w v = x.signExtend 64 := by
  rw [sext64, ← h, BitVec.ofNat_toNat, BitVec.setWidth_eq]

/-! ### A value written and read back -/

/-- The write and the read of `w` bytes at `a`, each through a cursor just opened: the read finds the value stored. -/
theorem putThenGet_of_exec {put get : Instr} (x : BitVec (8 * w)) (hput : ∀ s, exec put s = cursorWrite w x.toNat s)
    (hget : ∀ s, exec get s = cursorRead w ext s) (hcap : a + w ≤ Config.cap) :
    PutThenGet put get a (ext x.toNat) s := by
  have ha : a ≤ Config.cap := by omega
  have haddr (s : State) (r m : Bool) : cursorAddr ((s.openCursor (BitVec.ofNat 9 a) r m).answer none) = a :=
    cursorAddr_openCursor s r m ha
  have hx : x.toNat < 256 ^ w := x.isLt.trans_eq (Nat.pow_mul 2 8 w)
  refine ⟨_, _, _, _, execCuropen_of_le s false true ha, (hput _).trans (cursorWrite_inside rfl (by rwa [haddr])),
    execCuropen_of_le _ true false ha, (hget _).trans (cursorRead_inside rfl (by rwa [haddr]) ?_), rfl⟩
  rw [haddr, answer_buf, openCursor_buf, answer_buf, advanceCursor_buf, setBuf_buf, haddr, loadValue_storeValue hcap,
    Nat.mod_eq_of_lt hx]

theorem putThenGet_unsigned {put get : Instr} (x : BitVec (8 * w)) (hput : ∀ s, exec put s = cursorWrite w x.toNat s)
    (hget : ∀ s, exec get s = cursorRead w zext64 s) (hcap : a + w ≤ Config.cap) :
    PutThenGet put get a (x.setWidth 64) s := by
  rw [← zext64_of_toNat_eq rfl]
  exact putThenGet_of_exec x hput hget hcap

theorem putThenGet_signed {put get : Instr} (x : BitVec (8 * w)) (hput : ∀ s, exec put s = cursorWrite w x.toNat s)
    (hget : ∀ s, exec get s = cursorRead w (sext64 w) s) (hcap : a + w ≤ Config.cap) :
    PutThenGet put get a (x.signExtend 64) s := by
  rw [← sext64_of_toNat_eq rfl]
  exact putThenGet_of_exec x hput hget hcap

end

/-- Settles O46: a start up to `CAP` fits the 9-bit register, and opening the cursor writes nothing else. -/
theorem curopenSetsTheCursor : Obligations.CuropenSetsTheCursor := by
  intro s a r w h
  exact ⟨_, execCuropen_of_le s r w h, toNat_ofNat_of_le_cap h, rfl, rfl, rfl, rfl, fun _ => rfl, ⟨rfl, rfl, rfl⟩,
    ⟨rfl, rfl⟩, ⟨rfl, rfl⟩⟩

/-- Settles O50: every PUT is a cursor write and every GET a cursor read. -/
theorem disabledCursorAccessIsANoOp : Obligations.DisabledCursorAccessIsANoOp := by
  intro s
  refine ⟨fun hw => ?puts, fun hr => ?gets⟩
  case puts =>
    exact ⟨fun _ => cursorWrite_disabled hw, fun _ => cursorWrite_disabled hw, fun _ => cursorWrite_disabled hw,
      fun _ => cursorWrite_disabled hw⟩
  case gets =>
    exact ⟨cursorRead_disabled hr, cursorRead_disabled hr, cursorRead_disabled hr, cursorRead_disabled hr,
      cursorRead_disabled hr, cursorRead_disabled hr, cursorRead_disabled hr⟩

/-- Settles O54: every GET is a cursor read. -/
theorem cursorReadsFrame : Obligations.CursorReadsFrame := by
  intro s t i hi h
  simp only [List.mem_cons, List.not_mem_nil, or_false] at hi
  obtain rfl | rfl | rfl | rfl | rfl | rfl | rfl := hi <;> exact cursorRead_frame h

/-- Settles O55: every PUT is a cursor write of its width. -/
theorem cursorWritesFrame : Obligations.CursorWritesFrame := by
  intro s t i w hi h
  obtain ⟨v, rfl, rfl⟩ | ⟨v, rfl, rfl⟩ | ⟨v, rfl, rfl⟩ | ⟨v, rfl, rfl⟩ := hi <;> exact cursorWrite_frame h

/-- Settles O47: a PUT is the cursor write of its operand as a 64-bit value. -/
theorem putsStoreLittleEndian : Obligations.PutsStoreLittleEndian := by
  intro s
  have hwiden {n : Nat} (h : n ≤ 64) (w : Nat) (x : BitVec n) :
      cursorWrite w x.toNat s = cursorWrite w (x.setWidth 64).toNat s := by rw [BitVec.toNat_setWidth_of_le h]
  exact ⟨fun v => putStores_of_exec (hwiden (by decide) 1 v), fun v => putStores_of_exec (hwiden (by decide) 2 v),
    fun v => putStores_of_exec (hwiden (by decide) 4 v), fun v => putStores_of_exec rfl⟩

/-- Settles O48: the joined bytes are the little-endian value of the bytes read. -/
theorem unsignedGetsZeroExtend : Obligations.UnsignedGetsZeroExtend := by
  intro s b0 b1 b2 b3 b4 b5 b6 b7
  exact ⟨getResponds_of_exec rfl (zext64_of_toNat_eq (toNat_one_byte b0)),
    getResponds_of_exec rfl (zext64_of_toNat_eq (toNat_two_bytes b1 b0)),
    getResponds_of_exec rfl (zext64_of_toNat_eq (toNat_four_bytes b3 b2 b1 b0)),
    getResponds_of_exec rfl (zext64_of_toNat_eq (toNat_eight_bytes b7 b6 b5 b4 b3 b2 b1 b0))⟩

/-- Settles O49: the joined bytes fill the width whose top bit is the sign. -/
theorem signedGetsSignExtend : Obligations.SignedGetsSignExtend := by
  intro s b0 b1 b2 b3
  exact ⟨getResponds_of_exec rfl (sext64_of_toNat_eq (w := 1) (toNat_one_byte b0)),
    getResponds_of_exec rfl (sext64_of_toNat_eq (w := 2) (toNat_two_bytes b1 b0)),
    getResponds_of_exec rfl (sext64_of_toNat_eq (w := 4) (toNat_four_bytes b3 b2 b1 b0))⟩

/-- Settles O51, a width at a time: the value is read back whole, and widened as the read widens. -/
theorem putThenGetReturnsTheValue : Obligations.PutThenGetReturnsTheValue := by
  intro s a
  refine ⟨fun v h => ⟨?getu8, ?gets8⟩, fun v h => ⟨?getu16, ?gets16⟩, fun v h => ⟨?getu32, ?gets32⟩, fun v h => ?get64⟩
  case getu8 => exact putThenGet_unsigned (w := 1) v (fun _ => rfl) (fun _ => rfl) h
  case gets8 => exact putThenGet_signed (w := 1) v (fun _ => rfl) (fun _ => rfl) h
  case getu16 => exact putThenGet_unsigned (w := 2) v (fun _ => rfl) (fun _ => rfl) h
  case gets16 => exact putThenGet_signed (w := 2) v (fun _ => rfl) (fun _ => rfl) h
  case getu32 => exact putThenGet_unsigned (w := 4) v (fun _ => rfl) (fun _ => rfl) h
  case gets32 => exact putThenGet_signed (w := 4) v (fun _ => rfl) (fun _ => rfl) h
  case get64 =>
    have hget := putThenGet_unsigned (s := s) (put := .put64 v) (w := 8) v (fun _ => rfl) (get := .get64) (fun _ => rfl) h
    rwa [BitVec.setWidth_eq] at hget

end Sys2Proof.Machine
end

section
/-! SUPPORT. The assembler's signed writes (30_encoding.md R90, R91): a PUTI line is one PUT, of its integer modulo 2 to the
width. -/

namespace Sys2Proof.Machine

/-- The PUT of a width that takes its operand from DATA (30_encoding.md R82). -/
def putOf : PutWidth → Data → Instr
  | .w8, d => .put8 (d.setWidth 8)
  | .w16, d => .put16 (d.setWidth 16)
  | .w32, d => .put32 (d.setWidth 32)
  | .w64, d => .put64 d

theorem decode_putOp (width : PutWidth) (d : Data) : decode (wordOf (putOp width) 0 0 0) d = .ok (putOf width d) := by
  cases width with
  | w8 => exact decode_eq_ok.2 ⟨(Laws.EncodedFields.put8 (d.setWidth 8)).2 rfl, rfl⟩
  | w16 => exact decode_eq_ok.2 ⟨(Laws.EncodedFields.put16 (d.setWidth 16)).2 rfl, rfl⟩
  | w32 => exact decode_eq_ok.2 ⟨(Laws.EncodedFields.put32 (d.setWidth 32)).2 rfl, rfl⟩
  | w64 => exact decode_eq_ok.2 ⟨(Laws.EncodedFields.put64 d).2 rfl, rfl⟩

/-- Cutting an integer to 64 bits and then to `n` is reducing it modulo `2 ^ n`. -/
theorem setWidth_ofInt {n : Nat} (h : n ≤ 64) (v : Int) :
    (BitVec.ofInt 64 v).setWidth n = BitVec.ofNat n (v % 2 ^ n).toNat := by
  have hdvd : (2 ^ n : Int) ∣ 2 ^ 64 := pow_dvd_pow 2 h
  have hmod : (v % 2 ^ n).toNat = (v % 2 ^ 64).toNat % 2 ^ n := by
    rw [← Int.emod_emod_of_dvd v hdvd, Int.toNat_emod (Int.emod_nonneg v (by decide)) (by positivity)]
    norm_cast
  apply BitVec.eq_of_toNat_eq
  rw [hmod, BitVec.toNat_setWidth, BitVec.toNat_ofInt, BitVec.toNat_ofNat, Nat.mod_mod]
  norm_cast

/-- A PUTI line in the assembler's range stands for one transaction, which decodes to the PUT of its DATA. -/
theorem puti_decodes {width : PutWidth} {v : Int} {i : Instr} (hlo : -2 ^ (8 * putBytes width - 1) ≤ v)
    (hhi : v < 2 ^ (8 * putBytes width)) (hi : putOf width (BitVec.ofInt 64 v) = i) :
    ∃ w d, assemble (.puti width v) = some [.command w d] ∧ decode w d = .ok i := by
  have hput : asmPut width v = some (.command (wordOf (putOp width) 0 0 0) (BitVec.ofInt 64 v)) :=
    if_pos ⟨hlo, Int.le_sub_one_of_lt hhi⟩
  refine ⟨_, _, ?_, (decode_putOp width _).trans (congrArg Except.ok hi)⟩
  rw [assemble, hput]
  rfl

/-- Settles O52, a width at a time. -/
theorem signedWriteIsThePutOfTheTwosComplement : Obligations.SignedWriteIsThePutOfTheTwosComplement := by
  intro v
  have h64 : BitVec.ofInt 64 v = BitVec.ofNat 64 (v % 2 ^ 64).toNat := by
    rw [← setWidth_ofInt (by decide), BitVec.setWidth_eq]
  exact ⟨fun hlo hhi => puti_decodes hlo hhi (congrArg Instr.put8 (setWidth_ofInt (by decide) v)),
    fun hlo hhi => puti_decodes hlo hhi (congrArg Instr.put16 (setWidth_ofInt (by decide) v)),
    fun hlo hhi => puti_decodes hlo hhi (congrArg Instr.put32 (setWidth_ofInt (by decide) v)),
    fun hlo hhi => puti_decodes hlo hhi (congrArg Instr.put64 h64)⟩

end Sys2Proof.Machine
end

section
/-! SUPPORT. The checksum unit (41_checksum.md R141 to R147): the CRCs a byte at a time, a checked range read and checksummed,
and the register that no two different bytes leave equal. -/

namespace Sys2Proof.Machine

section

variable {n a : Nat} {poly c d : BitVec n} {bs xs ys : List Byte} {m : Memory} {s : State}

/-! ### The CRCs, a byte at a time -/

theorem crcShifts_eq_iterate (poly : BitVec n) (k : Nat) (c : BitVec n) : crcShifts poly k c = (crcShift poly)^[k] c := by
  induction k generalizing c with
  | zero => rfl
  | succ k ih => exact ih (crcShift poly c)

theorem crcShifts_succ (poly : BitVec n) (k : Nat) (c : BitVec n) :
    crcShifts poly (k + 1) c = crcShift poly (crcShifts poly k c) := by
  simp only [crcShifts_eq_iterate, Function.iterate_succ_apply']

/-- The registers of one byte's loop: the byte goes into the low bits, and 8 shifts later stands the register of the longer
string (41_checksum.md R142, R145). -/
theorem crcByte_loop (poly c : BitVec n) (b : Byte) :
    ∃ r : Nat → BitVec n, r 0 = c ^^^ b.setWidth n ∧
      (∀ k, r (k + 1) = if (r k).getLsbD 0 then (r k >>> 1) ^^^ poly else r k >>> 1) ∧ crcByte poly c b = r 8 :=
  ⟨fun k => crcShifts poly k (c ^^^ b.setWidth n), rfl, fun k => crcShifts_succ poly k _, rfl⟩

@[simp] theorem crcBytes_cons (poly c : BitVec n) (b : Byte) (bs : List Byte) :
    crcBytes poly c (b :: bs) = crcBytes poly (crcByte poly c b) bs := rfl

theorem crcBytes_append (poly c : BitVec n) (xs ys : List Byte) :
    crcBytes poly c (xs ++ ys) = crcBytes poly (crcBytes poly c xs) ys :=
  List.foldl_append

/-- At the default parameters (41_checksum.md R141) nothing is mirrored but the initial value, its own mirror image. -/
theorem crc32_eq (bs : List Byte) : crc32 bs = crcBytes 0xEDB88320 0xFFFFFFFF bs ^^^ 0xFFFFFFFF := by
  have hinit : Config.crc32Params.initial.reverse = 0xFFFFFFFF := by decide +kernel
  rw [crc32, crc32With, hinit]
  rfl

/-- The final exclusive-or undone: the register after the last byte. -/
theorem crc32_xor_final (bs : List Byte) : crc32 bs ^^^ 0xFFFFFFFF = crcBytes 0xEDB88320 0xFFFFFFFF bs := by
  rw [crc32_eq, BitVec.xor_assoc, BitVec.xor_self, BitVec.xor_zero]

@[simp] theorem crc32_nil : crc32 [] = 0 := by rw [crc32_eq]; rfl

@[simp] theorem crc16_nil (seed : BitVec 16) : crc16 seed [] = seed := rfl

theorem crc16_append (seed : BitVec 16) (xs ys : List Byte) : crc16 seed (xs ++ ys) = crc16 (crc16 seed xs) ys :=
  crcBytes_append _ _ _ _

/-! ### The commands -/

theorem holds_append (hx : Holds m a xs) (hy : Holds m (a + xs.length) ys) : Holds m a (xs ++ ys) := by
  intro k hk
  rw [List.getElem_append]
  split
  · next h => exact hx k h
  · next h =>
    rw [← hy (k - xs.length) (by rw [List.length_append] at hk; omega)]
    congr 1
    omega

/-- A range inside the buffer that holds `bs`, read to respond `f` of its bytes, responds `f bs`. -/
theorem checkedRead_of_holds {f : List Byte → Data} (hcap : a + bs.length ≤ Config.cap) (h : Holds s.buf a bs) :
    checkRange a bs.length s (readThen (loadBytes s.buf a bs.length) fun r => respond (f r) s) =
      .next (Answered (some (f bs)) s) := by
  rw [checkRange_of_le hcap, loadBytes_of_holds hcap h]
  rfl

theorem exec_crc32_of_holds (hcap : a + bs.length ≤ Config.cap) (h : Holds s.buf a bs) :
    exec (.crc32 a bs.length) s = .next (Answered (some ((crc32 bs).setWidth 64)) s) := by
  rw [← zext64_of_toNat_eq rfl]
  exact checkedRead_of_holds hcap h

theorem exec_crc16_of_holds (seed : BitVec 16) (hcap : a + bs.length ≤ Config.cap) (h : Holds s.buf a bs) :
    exec (.crc16 a bs.length seed) s = .next (Answered (some ((crc16 seed bs).setWidth 64)) s) := by
  rw [← zext64_of_toNat_eq rfl]
  exact checkedRead_of_holds hcap h

/-! ### A shift loses nothing -/

/-- Where the polynomial has its top bit, that bit of the result is the bit shifted out. -/
theorem msb_crcShift (hpoly : poly.msb = true) (c : BitVec n) : (crcShift poly c).msb = c.getLsbD 0 := by
  rw [crcShift]
  split
  · next h => simp [hpoly, h]
  · next h => simp [h]

theorem eq_of_lsb_of_shiftRight_one (hlsb : c.getLsbD 0 = d.getLsbD 0) (hshift : c >>> 1 = d >>> 1) : c = d := by
  refine BitVec.eq_of_getLsbD_eq fun i _ => ?_
  cases i with
  | zero => exact hlsb
  | succ i => simpa [Nat.add_comm] using congrArg (BitVec.getLsbD · i) hshift

theorem crcShift_injective (hpoly : poly.msb = true) : Function.Injective (crcShift poly) := by
  intro c d h
  have hlsb : c.getLsbD 0 = d.getLsbD 0 := by rw [← msb_crcShift hpoly, h, msb_crcShift hpoly]
  refine eq_of_lsb_of_shiftRight_one hlsb ?_
  rw [crcShift, crcShift, hlsb] at h
  split at h
  · exact (BitVec.xor_left_inj poly).1 h
  · exact h

theorem crcShifts_injective (hpoly : poly.msb = true) (k : Nat) : Function.Injective (crcShifts poly k) := by
  rw [funext (crcShifts_eq_iterate poly k)]
  exact (crcShift_injective hpoly).iterate k

theorem crcByte_register_injective (hpoly : poly.msb = true) (b : Byte) : Function.Injective fun c => crcByte poly c b :=
  fun _ _ h => (BitVec.xor_left_inj _).1 (crcShifts_injective hpoly 8 h)

/-- A register of 8 bits or more takes two different bytes to different registers. -/
theorem crcByte_byte_injective (hpoly : poly.msb = true) (hn : 8 ≤ n) (c : BitVec n) : Function.Injective (crcByte poly c) := by
  intro b b' h
  have hzext : b.setWidth n = b'.setWidth n := (BitVec.xor_right_inj c).1 (crcShifts_injective hpoly 8 h)
  exact BitVec.eq_of_toNat_eq (by rw [← BitVec.toNat_setWidth_of_le hn, hzext, BitVec.toNat_setWidth_of_le hn])

theorem crcBytes_register_injective (hpoly : poly.msb = true) (bs : List Byte) :
    Function.Injective fun c => crcBytes poly c bs := by
  induction bs with
  | nil => exact Function.injective_id
  | cons b bs ih => exact ih.comp (crcByte_register_injective hpoly b)

end

/-- Settles O43: the spec's loop is the model's, run on the register that the final exclusive-or hides. -/
theorem checksumsAreTheShiftRightLoops : Obligations.ChecksumsAreTheShiftRightLoops := by
  intro bs b seed
  rw [crc32_xor_final, crc32_eq, crcBytes_append, crc16_append]
  obtain ⟨r, hzero, hsucc, hlast⟩ := crcByte_loop 0xEDB88320 (crcBytes 0xEDB88320 0xFFFFFFFF bs) b
  exact ⟨⟨r, hzero, hsucc, congrArg (· ^^^ 0xFFFFFFFF) hlast⟩, crcByte_loop Config.crc16Poly (crc16 seed bs) b⟩

/-- Settles O44, by `crc16_append`: the second part's range is as it was, and starts from the first part's register. -/
theorem crc16IsIncremental : Obligations.Crc16IsIncremental := by
  rintro s a _ _ seed xs ys rfl rfl hcap hx hy
  refine ⟨_, crc16 seed xs, _, exec_crc16_of_holds seed (by omega) hx, rfl, exec_crc16_of_holds _ (by omega) hy, ?_⟩
  rw [← List.length_append] at hcap ⊢
  rw [← crc16_append]
  exact exec_crc16_of_holds seed hcap (holds_append hx hy)

/-- Settles O45: the two bytes leave different registers, which the bytes after them and the final exclusive-or keep apart. -/
theorem oneCorruptedByteChangesTheCrc32 : Obligations.OneCorruptedByteChangesTheCrc32 := by
  intro pre post b b' hne heq
  have hpoly : (0xEDB88320 : BitVec 32).msb = true := by decide
  rw [crc32_eq, crc32_eq, BitVec.xor_left_inj, crcBytes_append, crcBytes_append, crcBytes_cons, crcBytes_cons] at heq
  have hbyte := crcBytes_register_injective hpoly post heq
  exact hne (crcByte_byte_injective hpoly (by decide) _ hbyte)

/-- Settles O42: the range is read whole, and the loops over no byte leave their initial registers. -/
theorem checksumCommandsRespondTheChecksum : Obligations.ChecksumCommandsRespondTheChecksum := by
  intro s a bs seed hcap h
  refine ⟨exec_crc32_of_holds hcap h, exec_crc16_of_holds seed hcap h, ?_⟩
  rintro rfl
  exact ⟨crc32_nil, crc16_nil seed⟩

end Sys2Proof.Machine
end

section
/-! SUPPORT. Encoded ranges (42_cobs.md R161 to R166). From each position the jumps reach, the rest of an encoded range is a
chain of blocks that ends in the delimiter. The encoder writes such chains only, the decoder accepts such chains only, and the
positions the jumps reach are the zeros of the decoded range. -/

namespace Sys2Proof.Machine

/-- What stands in an encoded range from a reached position on, and what it decodes to: the delimiter; or a code byte, the
non-zero bytes it jumps over and the chain it jumps to, with the code byte restored to zero (42_cobs.md R163 (b)). -/
inductive Chain : List Byte → List Byte → Prop where
  | delimiter : Chain [0x00] [0x00]
  | block {r w : List Byte} (c : Byte) (ys : List Byte) (hc : c.toNat = ys.length + 1) (hys : 0x00 ∉ ys) (h : Chain r w) :
      Chain (c :: (ys ++ r)) (0x00 :: (ys ++ w))

section

variable {c : Byte} {r w b p d xs ys zs : List Byte} {i k : Nat}

/-- The zeros of a range whose leading bytes after the first are not zero. -/
theorem getElem?_cons_append_eq_zero (hys : 0x00 ∉ ys) :
    (0x00 :: (ys ++ w))[i]? = some 0x00 ↔ i = 0 ∨ ∃ j, i = ys.length + 1 + j ∧ w[j]? = some 0x00 := by
  cases i with
  | zero => simp
  | succ i =>
    rw [List.getElem?_cons_succ]
    by_cases hi : i < ys.length
    · rw [List.getElem?_append_left hi]
      have hne : ys[i]? ≠ some 0x00 := fun h => hys (List.mem_of_getElem? h)
      simp only [hne, false_iff]
      rintro (h | ⟨j, h, -⟩) <;> omega
    · rw [List.getElem?_append_right (Nat.le_of_not_lt hi)]
      constructor
      · exact fun h => .inr ⟨i - ys.length, by omega, h⟩
      · rintro (h | ⟨j, h, hj⟩)
        · omega
        · rwa [show i - ys.length = j by omega]

/-- The zeros of a range that ends in the delimiter. -/
theorem getElem?_concat_eq_zero : (b ++ [0x00])[i]? = some 0x00 ↔ b[i]? = some 0x00 ∨ i = b.length := by
  obtain hi | rfl | hi := Nat.lt_trichotomy i b.length
  · rw [List.getElem?_append_left hi]
    exact ⟨.inl, fun h => h.resolve_right hi.ne⟩
  · simp
  · rw [List.getElem?_eq_none (by simpa using hi), List.getElem?_eq_none hi.le]
    simp [hi.ne']

/-- The delimiter is the only zero of a range with none before it. -/
theorem getElem?_concat_eq_zero_of_not_mem (hb : 0x00 ∉ b) : (b ++ [0x00])[i]? = some 0x00 ↔ i = b.length :=
  getElem?_concat_eq_zero.trans (or_iff_right fun h => hb (List.mem_of_getElem? h))

/-! ### Chains -/

theorem Chain.length_eq (h : Chain r w) : w.length = r.length := by
  induction h with
  | delimiter => rfl
  | block c ys hc hys h ih => simp [ih]

/-- The only zero byte of a chain is its last (42_cobs.md R163 (a)). -/
theorem Chain.eq_concat (h : Chain r w) : ∃ b, r = b ++ [0x00] ∧ 0x00 ∉ b := by
  induction h with
  | delimiter => exact ⟨[], rfl, List.not_mem_nil⟩
  | block c ys hc hys h ih =>
    obtain ⟨b, rfl, hb⟩ := ih
    have hc0 : 0x00 ≠ c := by rintro rfl; cases hc
    have hyb : 0x00 ∉ ys ++ b := List.not_mem_append hys hb
    exact ⟨c :: (ys ++ b), by rw [List.cons_append, List.append_assoc], List.not_mem_cons_of_ne_of_not_mem hc0 hyb⟩

/-- A jump over the first `c` positions, and the jumps from there. -/
theorem jumpsTo_cons :
    JumpsTo (c :: r) i ↔ i = 0 ∨ ∃ j, i = c.toNat + j ∧ JumpsTo ((c :: r).drop c.toNat) j := by
  constructor
  · intro h
    induction h with
    | start => exact .inl rfl
    | @jump i b h hb ih =>
      obtain rfl | ⟨j, rfl, hj⟩ := ih
      · obtain rfl : c = b := Option.some.inj hb
        exact .inr ⟨0, by omega, .start⟩
      · exact .inr ⟨j + b.toNat, by omega, hj.jump (by rwa [List.getElem?_drop])⟩
  · rintro (rfl | ⟨j, rfl, hj⟩)
    · exact .start
    · induction hj with
      | start => simpa using JumpsTo.start.jump (r := c :: r) (b := c) rfl
      | jump h hb ih => exact Nat.add_assoc .. ▸ ih.jump (by rwa [List.getElem?_drop] at hb)

theorem jumpsTo_delimiter : JumpsTo [0x00] i ↔ i = 0 := by
  constructor
  · intro h
    induction h with
    | start => rfl
    | jump h hb ih =>
      subst ih
      obtain rfl := Option.some.inj hb
      rfl
  · rintro rfl
    exact .start

/-- The positions the jumps reach are the zeros of the decoded range (42_cobs.md R163 (b)). -/
theorem Chain.jumpsTo_iff (h : Chain r w) : JumpsTo r i ↔ w[i]? = some 0x00 := by
  induction h generalizing i with
  | delimiter => rw [jumpsTo_delimiter, ← List.nil_append [0x00], getElem?_concat_eq_zero_of_not_mem List.not_mem_nil]; rfl
  | @block r w c ys hc hys h ih =>
    have hdrop : (c :: (ys ++ r)).drop (ys.length + 1) = r := by simp
    rw [jumpsTo_cons, getElem?_cons_append_eq_zero hys, hc, hdrop]
    simp only [ih]

/-! ### The encoder writes chains -/

/-- Stuffing passes over the bytes before the first zero. -/
theorem cobsStuff_append (hys : 0x00 ∉ ys) (xs : List Byte) :
    cobsStuff (ys ++ xs) = ((cobsStuff xs).1 + ys.length, ys ++ (cobsStuff xs).2) := by
  induction ys with
  | nil => rfl
  | cons y ys ih =>
    obtain ⟨hy, hys⟩ := List.ne_and_not_mem_of_not_mem_cons hys
    rw [List.cons_append, cobsStuff, if_neg (Ne.symm hy), ih hys]
    rfl

/-- An interior without a zero is stuffed as it is, at the longest distance. -/
theorem cobsStuff_of_not_mem (hys : 0x00 ∉ ys) : cobsStuff ys = (ys.length + 1, ys) := by
  have h := cobsStuff_append hys []
  rwa [List.append_nil, cobsStuff, List.append_nil, Nat.add_comm] at h

/-- An interior without a zero is one block (42_cobs.md R163 (c)). -/
theorem cobsEncode_of_not_mem (hys : 0x00 ∉ ys) :
    cobsEncode ys = BitVec.ofNat 8 (ys.length + 1) :: (ys ++ [0x00]) := by
  rw [cobsEncode_eq_stuff, cobsStuff_of_not_mem hys]
  rfl

/-- The interior's first zero ends its first block. -/
theorem cobsEncode_append_zero (hys : 0x00 ∉ ys) (zs : List Byte) :
    cobsEncode (ys ++ 0x00 :: zs) = BitVec.ofNat 8 (ys.length + 1) :: (ys ++ cobsEncode zs) := by
  rw [cobsEncode_eq_stuff, cobsEncode_eq_stuff, cobsStuff_append hys]
  simp [cobsStuff, Nat.add_comm]

/-- A distance inside the buffer fits a byte. -/
theorem toNat_distance {n : Nat} (h : n + 2 ≤ Config.cap) : (BitVec.ofNat 8 (n + 1)).toNat = n + 1 := by
  rw [BitVec.toNat_ofNat]
  exact Nat.mod_eq_of_lt (by rw [cap_eq] at h; omega)

/-- What `cobs_encode` writes is a chain, of the interior between two zeros. -/
theorem chain_cobsEncode (xs : List Byte) (h : xs.length + 2 ≤ Config.cap) :
    Chain (cobsEncode xs) (0x00 :: (xs ++ [0x00])) := by
  by_cases h0 : 0x00 ∈ xs
  · obtain ⟨ys, zs, rfl, hys⟩ := List.eq_append_cons_of_mem h0
    simp only [List.length_append, List.length_cons] at h
    have hzs := chain_cobsEncode zs (by omega)
    rw [cobsEncode_append_zero hys, List.append_assoc, List.cons_append]
    exact .block _ ys (toNat_distance (by omega)) hys hzs
  · rw [cobsEncode_of_not_mem h0]
    exact .block _ xs (toNat_distance h) h0 .delimiter
termination_by xs.length

/-- Every chain but the bare delimiter is what `cobs_encode` writes for its interior. -/
theorem Chain.eq_cobsEncode (h : Chain r w) :
    (r = [0x00] ∧ w = [0x00]) ∨ ∃ xs, r = cobsEncode xs ∧ w = 0x00 :: (xs ++ [0x00]) := by
  induction h with
  | delimiter => exact .inl ⟨rfl, rfl⟩
  | block c ys hc hys h ih =>
    obtain rfl : BitVec.ofNat 8 (ys.length + 1) = c := by rw [← hc, BitVec.ofNat_toNat, BitVec.setWidth_eq]
    obtain ⟨rfl, rfl⟩ | ⟨zs, rfl, rfl⟩ := ih
    · exact .inr ⟨ys, (cobsEncode_of_not_mem hys).symm, rfl⟩
    · exact .inr ⟨ys ++ 0x00 :: zs, (cobsEncode_append_zero hys zs).symm, by simp⟩

/-! ### The decoder accepts chains -/

/-- A code byte where the walk does not fail stays inside the range. -/
theorem le_of_cobsWalk (h : cobsWalk (k + 1) p.length (p ++ c :: r) = some d) : c.toNat ≤ r.length := by
  rw [cobsWalk] at h
  split at h
  · cases h
  · next hle => simp at hle; omega

/-- The byte the walk leaves in place of a code byte: the zero it stood for, but not at the leading slot (42_cobs.md R164). -/
def restored (p : List Byte) (c : Byte) : Byte := if 0 < p.length then 0x00 else c

/-- The walk jumps from a code byte to the bytes after its block, and stops where these are the delimiter alone. -/
theorem cobsWalk_block (hc : c.toNat = ys.length + 1) (hr : r ≠ []) :
    cobsWalk (k + 1) p.length (p ++ c :: (ys ++ r)) =
      if r.length = 1 then some (p ++ restored p c :: ys ++ r)
      else cobsWalk k (p ++ restored p c :: ys).length (p ++ restored p c :: ys ++ r) := by
  have hpos := List.length_pos_iff.2 hr
  have hget : (p ++ c :: (ys ++ r)).getD p.length 0 = c := by simp [List.getD]
  have hset : (if 0 < p.length then (p ++ c :: (ys ++ r)).set p.length 0 else p ++ c :: (ys ++ r)) =
      p ++ restored p c :: ys ++ r := by
    unfold restored
    split <;> simp
  have hlen : (p ++ c :: (ys ++ r)).length - 1 = p.length + ys.length + r.length := by simp; omega
  have hjump : p.length + (ys.length + 1) = (p ++ restored p c :: ys).length := by simp
  rw [cobsWalk, hget, hc, hset, hlen, if_neg (by omega), hjump]
  simp only [List.length_append, List.length_cons]
  exact if_congr (by omega) rfl rfl

/-- The walk follows a chain to its delimiter. -/
theorem Chain.cobsWalk_eq (h : Chain r w) (hc : c.toNat = ys.length + 1) (hk : r.length ≤ k) :
    cobsWalk k p.length (p ++ c :: (ys ++ r)) = some (p ++ restored p c :: ys ++ w) := by
  induction h generalizing p c ys k with
  | delimiter =>
    cases k with
    | zero => cases hk
    | succ k => rw [cobsWalk_block hc (List.cons_ne_nil _ _), if_pos List.length_singleton]
  | @block r w c' ys' hc' hys' h ih =>
    have hpos : 0 < r.length := by obtain ⟨b, rfl, -⟩ := h.eq_concat; simp
    have hne : (c' :: (ys' ++ r)).length ≠ 1 := by simp only [List.length_cons, List.length_append]; omega
    have hz : restored (p ++ restored p c :: ys) c' = 0x00 := if_pos (by simp)
    cases k with
    | zero => cases hk
    | succ k =>
      simp only [List.length_cons, List.length_append] at hk
      rw [cobsWalk_block hc (List.cons_ne_nil _ _), if_neg hne, ih hc' (by omega), hz]
      simp

/-- Where the walk succeeds on non-zero bytes before a delimiter, they and the delimiter are a chain. -/
theorem chain_of_cobsWalk (hb : b ≠ []) (hz : 0x00 ∉ b) (h : cobsWalk k p.length (p ++ (b ++ [0x00])) = some d) :
    ∃ w, Chain (b ++ [0x00]) w := by
  induction k generalizing p b with
  | zero => cases h
  | succ k ih =>
    obtain ⟨c, l, rfl⟩ := List.exists_cons_of_ne_nil hb
    obtain ⟨hc0, hl⟩ := List.ne_and_not_mem_of_not_mem_cons hz
    obtain ⟨n, hn⟩ := Nat.exists_eq_succ_of_ne_zero fun h0 => hc0 (BitVec.eq_of_toNat_eq h0.symm)
    have hle : n ≤ l.length := by
      have hc : c.toNat ≤ (l ++ [0x00]).length := le_of_cobsWalk h
      rw [hn, List.length_append] at hc
      exact Nat.le_of_succ_le_succ hc
    obtain ⟨ys, zs, rfl, hys⟩ : ∃ ys zs, l = ys ++ zs ∧ ys.length = n :=
      ⟨l.take n, l.drop n, (List.take_append_drop n l).symm, List.length_take_of_le hle⟩
    subst hys
    obtain ⟨hy0, hz0⟩ : 0x00 ∉ ys ∧ 0x00 ∉ zs := by simpa using hl
    suffices hzs : ∃ w, Chain (zs ++ [0x00]) w by
      obtain ⟨w, hw⟩ := hzs
      exact ⟨_, by simpa using Chain.block c ys hn hy0 hw⟩
    rw [List.cons_append, List.append_assoc, cobsWalk_block hn (by simp)] at h
    by_cases hnil : zs = []
    · subst hnil
      exact ⟨_, .delimiter⟩
    · rw [if_neg (by simpa using hnil)] at h
      exact ih hnil hz0 h

/-- Decoding is the walk of a range that has both reserved slots, the delimiter and no zero before it (42_cobs.md R164). -/
theorem cobsDecode_concat (b : List Byte) (x : Byte) :
    cobsDecode (b ++ [x]) =
      if b = [] ∨ x ≠ 0x00 ∨ 0x00 ∈ b then none else cobsWalk (b ++ [x]).length 0 (b ++ [x]) := by
  have hlen : (b ++ [x]).length - 1 = b.length := by simp
  have hlast : (b ++ [x]).getD b.length 0 = x := by simp [List.getD]
  have hshort : (b ++ [x]).length < 2 ↔ b = [] := by cases b <;> simp
  have hany : b.any (· == 0x00) = true ↔ 0x00 ∈ b := by simp
  simp only [cobsDecode, hlen, hlast, hshort, List.take_left', hany, ite_or]

/-- A chain with both reserved slots decodes to what it stands for, but for its leading slot. -/
theorem Chain.cobsDecode_eq (h : Chain r w) (h2 : 2 ≤ r.length) : ∃ c, cobsDecode r = some (c :: w.tail) := by
  obtain ⟨b, hb, hz⟩ := h.eq_concat
  have hne : b ≠ [] := by rintro rfl; subst hb; simp at h2
  have hwalk : cobsDecode r = cobsWalk r.length 0 r := by
    rw [hb, cobsDecode_concat, if_neg (not_or.2 ⟨hne, not_or.2 ⟨not_not.2 rfl, hz⟩⟩)]
  cases h with
  | delimiter => simp at h2
  | block c ys hc hys h => exact ⟨c, hwalk.trans (h.cobsWalk_eq (p := []) hc (by simp; omega))⟩

/-- A range that decodes is the chain of an interior, and what it decodes to holds that interior. -/
theorem chain_of_cobsDecode (h : cobsDecode r = some d) :
    ∃ xs c, r = cobsEncode xs ∧ Chain r (0x00 :: (xs ++ [0x00])) ∧ d = c :: (xs ++ [0x00]) := by
  have h2 := two_le_of_cobsDecode h
  obtain ⟨b, x, rfl⟩ := (List.eq_nil_or_concat' r).resolve_left (by rintro rfl; cases h2)
  have hwalk := h
  rw [cobsDecode_concat] at hwalk
  split_ifs at hwalk with hbad
  simp only [not_or, not_not] at hbad
  obtain ⟨hb, rfl, hz⟩ := hbad
  obtain ⟨w, hw⟩ := chain_of_cobsWalk (p := []) hb hz hwalk
  obtain ⟨c, hc⟩ := hw.cobsDecode_eq h2
  obtain ⟨hr, -⟩ | ⟨xs, hr, rfl⟩ := hw.eq_cobsEncode
  · exact absurd (List.append_cancel_right (hr.trans (List.nil_append _).symm)) hb
  · exact ⟨xs, c, hr, hw, Option.some.inj (h.symm.trans hc)⟩

theorem cobsDecode_cobsEncode (h : xs.length + 2 ≤ Config.cap) :
    ∃ c, cobsDecode (cobsEncode xs) = some (c :: (xs ++ [0x00])) :=
  (chain_cobsEncode xs h).cobsDecode_eq (by simp)

/-- A range that is no chain does not decode. -/
theorem cobsDecode_eq_none (h : ∀ w, ¬ Chain r w) : cobsDecode r = none := by
  rw [Option.eq_none_iff_forall_ne_some]
  intro d hd
  obtain ⟨xs, c, -, hr, -⟩ := chain_of_cobsDecode hd
  exact h _ hr

/-! ### The leading byte of an encoded range -/

/-- With nothing but zeros every jump is 1 (42_cobs.md R163 (c)). -/
theorem cobsEncode_replicate_zero (n : Nat) :
    cobsEncode (List.replicate n 0x00) = List.replicate (n + 1) 0x01 ++ [0x00] := by
  induction n with
  | zero => rfl
  | succ n ih =>
    have h := cobsEncode_append_zero (ys := []) List.not_mem_nil (List.replicate n 0x00)
    rw [ih] at h
    exact h

/-- An interior with a zero is reached before the delimiter. -/
theorem cobsStuff_le_of_zero_mem (h : 0x00 ∈ xs) : (cobsStuff xs).1 ≤ xs.length := by
  obtain ⟨ys, zs, rfl, hys⟩ := List.eq_append_cons_of_mem h
  rw [cobsStuff_append hys, cobsStuff, if_pos rfl, List.length_append, List.length_cons]
  omega

/-- Stuffing keeps the non-zero bytes in their places (42_cobs.md R161). -/
theorem getElem?_cobsStuff {x : Byte} (hx : x ≠ 0x00) (h : xs[k]? = some x) : (cobsStuff xs).2[k]? = some x := by
  induction xs generalizing k with
  | nil => cases h
  | cons y xs ih =>
    cases k with
    | zero =>
      obtain rfl := Option.some.inj h
      rw [cobsStuff, if_neg hx]
      rfl
    | succ k => rw [cobsStuff]; split <;> exact ih h

/-- The stuffed interior holds no zero (42_cobs.md R163 (a)). -/
theorem zero_not_mem_cobsStuff (h : xs.length + 2 ≤ Config.cap) : 0x00 ∉ (cobsStuff xs).2 := by
  obtain ⟨b, hb, hz⟩ := (chain_cobsEncode xs h).eq_concat
  rw [cobsEncode_eq_stuff] at hb
  obtain rfl := List.append_cancel_right hb
  exact fun h => hz (List.mem_cons_of_mem _ h)

end

/-- Settles O35: the encoding is the chain of its interior; its leading bytes come from the encoder's equations. -/
theorem encodedRangeProperties : Obligations.EncodedRangeProperties := by
  intro xs h
  have hchain := chain_cobsEncode xs h
  refine ⟨fun i _ => ?onlyZero, fun i => ?jumps, fun hxs => ?noZero, fun hxs i hi => ?allZero⟩
  case onlyZero =>
    obtain ⟨b, hb, hz⟩ := hchain.eq_concat
    have hlen : xs.length + 2 = b.length + 1 := by rw [← length_cobsEncode, hb]; simp
    rw [hb, getElem?_concat_eq_zero_of_not_mem hz]
    omega
  case jumps =>
    rw [hchain.jumpsTo_iff]
    cases i with
    | zero => simp
    | succ i => rw [List.getElem?_cons_succ, getElem?_concat_eq_zero]; simp
  case noZero =>
    rw [cobsEncode_of_not_mem fun h => hxs _ h rfl]
    rfl
  case allZero =>
    rw [List.eq_replicate_of_mem hxs, cobsEncode_replicate_zero,
      List.getElem?_append_left (by simpa using hi)]
    exact List.getElem?_replicate_of_lt hi

/-- Settles O39: no chain is malformed, since the decoded range is no longer than the chain and its zeros are the positions
reached. -/
theorem malformedRangesDoNotDecode : Obligations.MalformedRangesDoNotDecode := by
  intro r
  refine ⟨fun h2 => ?short, fun b hb hb0 => ?last, fun k hk hk0 => ?early, fun i b hi hb hpast => ?past⟩
  case short => exact if_pos h2
  case last =>
    refine cobsDecode_eq_none fun w hw => ?_
    obtain ⟨bs, rfl, -⟩ := hw.eq_concat
    rw [List.getLast?_concat] at hb
    exact hb0 (Option.some.inj hb).symm
  case early =>
    refine cobsDecode_eq_none fun w hw => ?_
    obtain ⟨bs, rfl, hz⟩ := hw.eq_concat
    rw [getElem?_concat_eq_zero_of_not_mem hz] at hk0
    simp [hk0] at hk
  case past =>
    refine cobsDecode_eq_none fun w hw => ?_
    have hreach : w[i + b.toNat]? = some 0x00 := hw.jumpsTo_iff.1 (hi.jump hb)
    have hlt := (List.getElem?_eq_some_iff.1 hreach).1
    rw [hw.length_eq] at hlt
    omega

/-- Settles O40, by the chains between the two functions. -/
theorem decodesExactlyTheEncodedRanges : Obligations.DecodesExactlyTheEncodedRanges := by
  intro r hr
  constructor
  · rintro ⟨d, hd⟩
    obtain ⟨xs, -, rfl, -⟩ := chain_of_cobsDecode hd
    exact ⟨xs, rfl⟩
  · rintro ⟨xs, rfl⟩
    rw [length_cobsEncode] at hr
    obtain ⟨c, hc⟩ := cobsDecode_cobsEncode hr
    exact ⟨_, hc⟩

end Sys2Proof.Machine
end

section
/-! SUPPORT. The commands COBSENC and COBSDEC (42_cobs.md R162, R165): everything they can answer, and their next state on a
range that holds values. -/

namespace Sys2Proof.Machine

section

variable {s t : State} {m : Memory} {a n k : Nat} {c : Byte} {xs bs r d : List Byte}

/-! ### What the commands can answer -/

/-- A command that leaves another buffer and responds keeps every register. -/
theorem setBuf_answer_frame (s : State) (m : Memory) (r : Response) :
    KeepsFramer s ((s.setBuf m).answer r) ∧ KeepsCursor s ((s.setBuf m).answer r) ∧
      KeepsHost s ((s.setBuf m).answer r) ∧ KeepsFault s ((s.setBuf m).answer r) :=
  ⟨⟨rfl, rfl, rfl⟩, ⟨rfl, rfl, rfl, rfl⟩, ⟨rfl, rfl⟩, ⟨rfl, rfl⟩⟩

/-- COBSENC takes one of its two faults, or answers none with a buffer that differs in the range only. -/
theorem exec_cobsenc_next (h : exec (.cobsenc a n) s = .next t) :
    (t = FaultTaken .capacityViolation s ∨ t = FaultTaken .badLength s) ∨
      (∃ m, t = (s.setBuf m).answer none) ∧ KeepsBytesOutside a n s t := by
  obtain ⟨hcap, h⟩ | ⟨-, rfl⟩ := checkRange_next.1 h
  · split at h
    · exact .inl (.inr (raiseFault_next.1 h))
    · next h2 =>
      obtain ⟨m, hm, h⟩ := readThen_next.1 h
      obtain rfl := respondNone_next.1 h
      exact .inr ⟨⟨m, rfl⟩, fun i hi => byteAt_cobsEncodeAt (Nat.le_of_not_lt h2) hcap hm hi⟩
  · exact .inl (.inl rfl)

/-- COBSDEC takes its fault, or responds with a buffer that differs in the range only. -/
theorem exec_cobsdec_next (h : exec (.cobsdec a n) s = .next t) :
    t = FaultTaken .capacityViolation s ∨
      (∃ m v, t = (s.setBuf m).answer (some v)) ∧ KeepsBytesOutside a n s t := by
  obtain ⟨hcap, h⟩ | ⟨-, rfl⟩ := checkRange_next.1 h
  · obtain ⟨out, hout, h⟩ := readThen_next.1 h
    obtain rfl := respond_next.1 h
    exact .inr ⟨⟨_, _, rfl⟩, fun i hi => byteAt_cobsDecodeAt hcap hout hi⟩
  · exact .inl rfl

/-- COBSENC keeps everything but its range and the fault record, and the record unless it takes a fault. -/
theorem exec_cobsenc_frame (h : exec (.cobsenc a n) s = .next t) :
    KeepsBytesOutside a n s t ∧ KeepsFramer s t ∧ KeepsCursor s t ∧ KeepsHost s t ∧
      (KeepsFaultOr .capacityViolation s t ∨ KeepsFaultOr .badLength s t) := by
  obtain (rfl | rfl) | ⟨⟨m, rfl⟩, hbytes⟩ := exec_cobsenc_next h
  · obtain ⟨hbytes, hframer, hcursor, hhost, hfault⟩ := faultTaken_frame s .capacityViolation
    exact ⟨fun i _ => hbytes i, hframer, hcursor, hhost, .inl hfault⟩
  · obtain ⟨hbytes, hframer, hcursor, hhost, hfault⟩ := faultTaken_frame s .badLength
    exact ⟨fun i _ => hbytes i, hframer, hcursor, hhost, .inr hfault⟩
  · obtain ⟨hframer, hcursor, hhost, hfault⟩ := setBuf_answer_frame s m none
    exact ⟨hbytes, hframer, hcursor, hhost, .inl (.inl hfault)⟩

/-- COBSDEC keeps everything but its range and the fault record, and the record unless it takes a fault. -/
theorem exec_cobsdec_frame (h : exec (.cobsdec a n) s = .next t) :
    KeepsBytesOutside a n s t ∧ KeepsFramer s t ∧ KeepsCursor s t ∧ KeepsHost s t ∧
      KeepsFaultOr .capacityViolation s t := by
  obtain rfl | ⟨⟨m, v, rfl⟩, hbytes⟩ := exec_cobsdec_next h
  · obtain ⟨hbytes, hframer, hcursor, hhost, hfault⟩ := faultTaken_frame s .capacityViolation
    exact ⟨fun i _ => hbytes i, hframer, hcursor, hhost, hfault⟩
  · obtain ⟨hframer, hcursor, hhost, hfault⟩ := setBuf_answer_frame s m (some v)
    exact ⟨hbytes, hframer, hcursor, hhost, .inl hfault⟩

/-! ### Their next state on a range that holds values -/

theorem exec_cobsenc_of_holds (hcap : a + (xs.length + 2) ≤ Config.cap) (h : Holds s.buf (a + 1) xs) :
    exec (.cobsenc a (xs.length + 2)) s = .next ((s.setBuf (storeBytes s.buf a (cobsEncode xs))).answer none) := by
  have hload : loadBytes s.buf (a + 1) xs.length = .ok xs := loadBytes_of_holds (by omega) h
  have henc : cobsEncodeAt s.buf a (xs.length + 2) = .ok (storeBytes s.buf a (cobsEncode xs)) :=
    cobsEncodeAt_eq_ok.2 ⟨xs, hload, rfl⟩
  exact checkRange_next.2 (.inl ⟨hcap, by rw [if_neg (by omega), henc]; rfl⟩)

/-- COBSDEC of a range that decodes. -/
theorem exec_cobsdec_of_some (hcap : a + r.length ≤ Config.cap) (h : Holds s.buf a r) (hd : cobsDecode r = some d) :
    exec (.cobsdec a r.length) s =
      .next ((s.setBuf (eraseBytes (storeBytes s.buf a d) a 1)).answer (some (BitVec.ofNat 64 (a + 1)))) := by
  have hdec := cobsDecodeAt_eq_ok.2 ⟨r, loadBytes_of_holds hcap h, .inl ⟨d, hd, rfl⟩⟩
  exact checkRange_next.2 (.inl ⟨hcap, readThen_next.2 ⟨_, hdec, rfl⟩⟩)

/-- COBSDEC of a range that does not. -/
theorem exec_cobsdec_of_none (hcap : a + r.length ≤ Config.cap) (h : Holds s.buf a r) (hd : cobsDecode r = none) :
    exec (.cobsdec a r.length) s = .next ((s.setBuf (eraseBytes s.buf a r.length)).answer (some 0)) := by
  have hdec := cobsDecodeAt_eq_ok.2 ⟨r, loadBytes_of_holds hcap h, .inr ⟨hd, rfl⟩⟩
  exact checkRange_next.2 (.inl ⟨hcap, readThen_next.2 ⟨_, hdec, rfl⟩⟩)

/-! ### The buffers they leave -/

theorem holds_storeBytes (h : a + bs.length ≤ Config.cap) : Holds (storeBytes m a bs) a bs :=
  holds_of_loadBytes (loadBytes_storeBytes h)

/-- The interior of a range that COBSENC wrote is the stuffed one. -/
theorem byteAt_encoded (h : a + (xs.length + 2) ≤ Config.cap) (hk : k < xs.length) :
    byteAt (storeBytes m a (cobsEncode xs)) (a + 1 + k) = (cobsStuff xs).2[k]? := by
  have hidx : a + 1 + k - a = k + 1 := by omega
  rw [byteAt_storeBytes (by simpa using h), length_cobsEncode, if_pos (by omega), hidx, cobsEncode_eq_stuff,
    List.cons_append, List.getElem?_cons_succ, List.getElem?_append_left (by simpa using hk)]

/-- The leading slot of a range that COBSENC wrote holds the first distance. -/
theorem byteAt_encoded_leading (h : a + (xs.length + 2) ≤ Config.cap) :
    byteAt (storeBytes m a (cobsEncode xs)) a = some (BitVec.ofNat 8 (cobsStuff xs).1) := by
  rw [byteAt_storeBytes (by simpa using h), length_cobsEncode, if_pos (by omega), Nat.sub_self, cobsEncode_eq_stuff]
  rfl

/-- A decoded range holds no value in its leading slot. -/
theorem byteAt_decoded_leading : byteAt (eraseBytes (storeBytes m a d) a 1) a = none := by
  rw [byteAt_eraseBytes, if_pos (by omega)]

theorem byteAt_decoded (h : a + d.length ≤ Config.cap) (h1 : 1 ≤ k) (hk : k < d.length) :
    byteAt (eraseBytes (storeBytes m a d) a 1) (a + k) = d[k]? := by
  rw [byteAt_eraseBytes, if_neg (by omega), byteAt_storeBytes h, if_pos (by omega), Nat.add_sub_cancel_left]

theorem holds_decoded (h : a + (xs.length + 2) ≤ Config.cap) :
    Holds (eraseBytes (storeBytes m a (c :: (xs ++ [0x00]))) a 1) (a + 1) xs := by
  intro k hk
  rw [Nat.add_assoc, byteAt_decoded (by simpa using h) (by omega) (by simp; omega), Nat.add_comm 1 k,
    List.getElem?_cons_succ, List.getElem?_append_left hk, List.getElem?_eq_getElem hk]

end

/-- Settles O37: the range check comes first, then the length check. -/
theorem cobsencOfAShortRangeFaults : Obligations.CobsencOfAShortRangeFaults := by
  intro s a n hn
  refine ⟨fun hcap => ?_, fun hcap => checkRange_past hcap⟩
  exact checkRange_next.2 (.inl ⟨hcap, if_pos hn⟩)

/-- Settles O58, by the frame of each command. -/
theorem codecCommandsFrame : Obligations.CodecCommandsFrame :=
  fun _ _ _ _ => ⟨exec_cobsenc_frame, exec_cobsdec_frame⟩

/-- Settles O36: stuffing keeps the non-zero bytes, and storing the encoding keeps what is outside the range. -/
theorem cobsencEncodesTheRange : Obligations.CobsencEncodesTheRange := by
  intro s a xs hcap h
  have hexec := exec_cobsenc_of_holds hcap h
  obtain ⟨hbytes, hframer, hcursor, hhost, -⟩ := exec_cobsenc_frame hexec
  refine ⟨_, hexec, holds_storeBytes (by simpa using hcap), fun k hk hne => ?_, hbytes, rfl, hframer, hcursor,
    ⟨rfl, rfl⟩, hhost⟩
  exact (byteAt_encoded hcap hk).trans (getElem?_cobsStuff hne (List.getElem?_eq_getElem hk))

/-- Settles O38, by whether the range decodes. -/
theorem cobsdecDecodesTheRange : Obligations.CobsdecDecodesTheRange := by
  intro s a r hcap h
  cases hd : cobsDecode r with
  | none =>
    have hexec := exec_cobsdec_of_none hcap h hd
    obtain ⟨hbytes, hframer, hcursor, hhost, -⟩ := exec_cobsdec_frame hexec
    refine ⟨_, hexec, hbytes, hframer, hcursor, ⟨rfl, rfl⟩, hhost, fun _ => ⟨rfl, fun i hlo hhi => ?_⟩, nofun⟩
    exact (byteAt_eraseBytes ..).trans (if_pos ⟨hlo, hhi⟩)
  | some d =>
    have hexec := exec_cobsdec_of_some hcap h hd
    obtain ⟨hbytes, hframer, hcursor, hhost, -⟩ := exec_cobsdec_frame hexec
    refine ⟨_, hexec, hbytes, hframer, hcursor, ⟨rfl, rfl⟩, hhost, nofun, ?_⟩
    rintro _ ⟨⟩
    have h2 := two_le_of_cobsDecode hd
    have hlen := length_cobsDecode hd
    rw [← hlen] at hcap h2 ⊢
    refine ⟨rfl, byteAt_decoded_leading, ?_, fun k h1 hk => byteAt_decoded hcap h1 hk⟩
    rw [Nat.add_sub_assoc (by omega)]
    refine (byteAt_decoded hcap (by omega) (by omega)).trans ?_
    obtain ⟨xs, c, -, -, rfl⟩ := chain_of_cobsDecode hd
    simp

/-- Settles O41: the encoding decodes to its interior; encoded again, its stuffed interior is one block, whose code byte is
`L-1`, and that was the first code byte only if the interior held no zero. -/
theorem decodingInvertsEncoding : Obligations.DecodingInvertsEncoding := by
  intro s a xs hcap h
  have hlen : xs.length + 2 ≤ Config.cap := by omega
  have hcap' : a + (cobsEncode xs).length ≤ Config.cap := by rwa [length_cobsEncode]
  obtain ⟨t, ht, hbuf⟩ : ∃ t, exec (.cobsenc a (xs.length + 2)) s = .next t ∧
      t.buf = storeBytes s.buf a (cobsEncode xs) := ⟨_, exec_cobsenc_of_holds hcap h, rfl⟩
  obtain ⟨c, hd⟩ := cobsDecode_cobsEncode hlen
  have hu := exec_cobsdec_of_some hcap' (hbuf ▸ holds_storeBytes hcap') hd
  have hstuffed : Holds t.buf (a + 1) (cobsStuff xs).2 := fun k hk => by
    rw [hbuf, byteAt_encoded hcap (by rwa [length_cobsStuff] at hk), List.getElem?_eq_getElem hk]
  have hcap2 : a + ((cobsStuff xs).2.length + 2) ≤ Config.cap := by rwa [length_cobsStuff]
  have hv := exec_cobsenc_of_holds hcap2 hstuffed
  have hleading := byteAt_encoded_leading (m := t.buf) hcap2
  rw [cobsStuff_of_not_mem (zero_not_mem_cobsStuff hlen)] at hleading
  rw [length_cobsEncode] at hu
  rw [length_cobsStuff] at hv hleading
  refine ⟨t, _, _, ht, hu, rfl, holds_decoded hcap, hv, hleading, fun h0 heq => ?_⟩
  have hfirst : byteAt t.buf a = some (BitVec.ofNat 8 (cobsStuff xs).1) := by rw [hbuf, byteAt_encoded_leading hcap]
  have hcode : (BitVec.ofNat 8 (xs.length + 1)).toNat = (BitVec.ofNat 8 (cobsStuff xs).1).toNat :=
    congrArg BitVec.toNat (Option.some.inj ((hleading.symm.trans heq).trans hfirst))
  have hle := cobsStuff_le_of_zero_mem h0
  have hmod := Nat.mod_le (cobsStuff xs).1 (2 ^ 8)
  rw [toNat_distance hlen, BitVec.toNat_ofNat] at hcode
  omega

end Sys2Proof.Machine
end

section
/-! SUPPORT. RESET and ADDB (44_packet.md R201, R202, R204): their next states, and what those leave unchanged. -/

namespace Sys2Proof.Machine

section

variable {s t : State} {b : Byte}

theorem exec_reset (s : State) : exec .reset s = .next ((s.setFramer 0 false false).answer none) := rfl

theorem exec_addb_of_refused (b : Byte) (h : s.complete = true ∨ s.size.toNat = Config.cap) :
    exec (.addb b) s = .next (Answered (some 0) s) :=
  if_pos (by simpa [full_iff] using h)

/-- The state after ADDB has accepted `b` (44_packet.md R201). -/
def acceptedByte (s : State) (b : Byte) : State :=
  ((s.setBuf (storeByte s.buf s.size.toNat b)).setFramer (s.size + 1) (completeAfter s b) s.consumed).answer (some 1)

theorem exec_addb_of_room (b : Byte) (hc : s.complete = false) (hs : s.size.toNat < Config.cap) :
    exec (.addb b) s = .next (acceptedByte s b) := by
  have hroom : ¬(s.complete || s.full) = true := by simp [hc, full_iff, hs.ne]
  exact (if_neg hroom).trans (if_pos hs)

/-- ADDB refuses its byte or accepts it. -/
theorem exec_addb_next (h : exec (.addb b) s = .next t) :
    ((s.complete = true ∨ s.size.toNat = Config.cap) ∧ t = s.answer (some 0)) ∨
      (s.complete = false ∧ s.size.toNat < Config.cap ∧ t = acceptedByte s b) := by
  cases exec_effect h with
  | refuse _ hr => exact .inl ⟨hr, rfl⟩
  | accept _ hc hs => exact .inr ⟨hc, hs, rfl⟩
  | fault hi | respond hi | access hi => cases hi

/-- The byte accepted stands at `buf[SIZE]`; the others are as before. -/
theorem byteAt_acceptedByte (hs : s.size.toNat < Config.cap) (b : Byte) (i : Nat) :
    byteAt (acceptedByte s b).buf i = if i = s.size.toNat then some b else byteAt s.buf i :=
  byteAt_storeByte hs b i

/-- An accepted byte changes its own place, `SIZE` and `COMPLETE`. -/
theorem acceptedByte_frame (hs : s.size.toNat < Config.cap) (b : Byte) :
    KeepsBytesOutside s.size.toNat 1 s (acceptedByte s b) ∧ (acceptedByte s b).consumed = s.consumed ∧
      KeepsCursor s (acceptedByte s b) ∧ KeepsFault s (acceptedByte s b) ∧ KeepsHost s (acceptedByte s b) :=
  ⟨fun i hi => (byteAt_acceptedByte hs b i).trans (if_neg (by omega)), rfl, ⟨rfl, rfl, rfl, rfl⟩, ⟨rfl, rfl⟩, ⟨rfl, rfl⟩⟩

/-- An accepted byte completes the frame exactly when it is the delimiter. -/
theorem acceptedByte_complete (hc : s.complete = false) (b : Byte) :
    (acceptedByte s b).complete = true ↔ b = 0x00 := by
  by_cases hb : b = 0x00
  · subst hb
    exact iff_of_true (completeAfter_delimiter s) rfl
  · exact iff_of_false (by rw [acceptedByte, answer_complete, setFramer_complete, completeAfter_of_ne s hb, hc]; simp) hb

end

/-- Settles O20: RESET writes the framer's registers only. -/
theorem resetReturnsTheFramerToEmpty : Obligations.ResetReturnsTheFramerToEmpty := fun s =>
  ⟨_, exec_reset s, rfl, rfl, rfl, framerState_eq_empty.2 ⟨rfl, rfl⟩, rfl, fun _ => rfl, ⟨rfl, rfl, rfl, rfl⟩, ⟨rfl, rfl⟩,
    ⟨rfl, rfl⟩⟩

/-- Settles O22: the test of R202 comes first. -/
theorem refusedAddbChangesNothing : Obligations.RefusedAddbChangesNothing := fun _ b h => exec_addb_of_refused b h

/-- Settles O21: with room for it the byte is accepted. -/
theorem addbAcceptsAByte : Obligations.AddbAcceptsAByte := by
  intro s b hc hs
  obtain ⟨hbytes, hconsumed, hcursor, hfault, hhost⟩ := acceptedByte_frame hs b
  exact ⟨_, exec_addb_of_room b hc hs, (byteAt_acceptedByte hs b _).trans (if_pos rfl), hbytes, toNat_size_succ hs,
    acceptedByte_complete hc b, hconsumed, rfl, hcursor, hfault, hhost⟩

/-- Settles O56: RESET has one next state, and ADDB refuses its byte or accepts it. -/
theorem resetAndAddbFrame : Obligations.ResetAndAddbFrame := by
  intro s t b
  refine ⟨fun h => ?reset, fun h => ?addb⟩
  case reset =>
    cases h
    exact ⟨fun _ => rfl, ⟨rfl, rfl, rfl, rfl⟩, ⟨rfl, rfl⟩, ⟨rfl, rfl⟩⟩
  case addb =>
    obtain ⟨-, rfl⟩ | ⟨-, hs, rfl⟩ := exec_addb_next h
    · obtain ⟨hbytes, ⟨-, -, hconsumed⟩, hcursor, hhost, hfault⟩ := answer_frame s (some 0)
      exact ⟨fun i _ => hbytes i, hconsumed, hcursor, hfault, hhost⟩
    · exact acceptedByte_frame hs b

end Sys2Proof.Machine
end

section
/-! SUPPORT. PARSE (44_packet.md R210 to R218). What it makes of a whole frame depends on the frame's bytes alone: the response
(`frameResponse`) and the bytes it leaves in the frame's place (`decodedBuf`). -/

namespace Sys2Proof.Machine

/-- The response of PARSE by what the frame decodes to, a body of `L - 6` bytes and its stored CRC32 from position 1: the
header's id where steps (3) to (5) of 44_packet.md R210 succeed, else 0. -/
def regionResponse (d : List Byte) : Data :=
  if leValue ((d.drop (d.length - 5)).take 4) = (crc32 ((d.drop 1).take (d.length - 6))).toNat ∧
      (d.getD 1 0).toNat + 2 = d.length - 6
  then (d.getD 2 0).setWidth 64 else 0

/-- The response of PARSE of a whole frame (44_packet.md R210, steps (2) to (5)). -/
def frameResponse (frame : List Byte) : Data :=
  match cobsDecode frame with
  | some d => regionResponse d
  | none => 0

/-- The buffer after the decode of the frame at index 0 (42_cobs.md R164). -/
def decodedBuf (m : Memory) (frame : List Byte) : Memory :=
  match cobsDecode frame with
  | some d => eraseBytes (storeBytes m 0 d) 0 1
  | none => eraseBytes m 0 frame.length

/-- The block holds a complete frame that PARSE can check: not parsed yet, of `MIN_FRAME` bytes at least, inside the buffer,
its bytes all holding values. -/
structure HoldsFrame (s : State) (frame : List Byte) : Prop where
  complete : s.complete = true
  consumed : s.consumed = false
  length_eq : frame.length = s.size.toNat
  min_le : 8 ≤ frame.length
  le_cap : frame.length ≤ Config.cap
  holds : Holds s.buf 0 frame

/-- The state after PARSE of the whole frame `frame`. -/
def parsedFrame (s : State) (frame : List Byte) : State :=
  ((s.setFramer s.size s.complete true).setBuf (decodedBuf s.buf frame)).answer (some (frameResponse frame))

section

variable {s t : State} {m m' : Memory} {frame d bs : List Byte} {i : Nat}

/-! ### The decode -/

theorem frameResponse_of_some (hd : cobsDecode frame = some d) : frameResponse frame = regionResponse d := by
  simp only [frameResponse, hd]

theorem frameResponse_of_none (hd : cobsDecode frame = none) : frameResponse frame = 0 := by
  simp only [frameResponse, hd]

theorem decodedBuf_of_some (hd : cobsDecode frame = some d) :
    decodedBuf m frame = eraseBytes (storeBytes m 0 d) 0 1 := by
  simp only [decodedBuf, hd]

theorem decodedBuf_of_none (hd : cobsDecode frame = none) : decodedBuf m frame = eraseBytes m 0 frame.length := by
  simp only [decodedBuf, hd]

/-- A frame that holds values decodes to `decodedBuf`. -/
theorem cobsDecodeAt_of_holds (hcap : frame.length ≤ Config.cap) (h : Holds m 0 frame) :
    cobsDecodeAt m 0 frame.length = .ok ((cobsDecode frame).isSome, decodedBuf m frame) := by
  have hload : loadBytes m 0 frame.length = .ok frame := loadBytes_of_holds (by rwa [Nat.zero_add]) h
  refine cobsDecodeAt_eq_ok.2 ⟨frame, hload, ?_⟩
  cases hd : cobsDecode frame with
  | some d => exact .inl ⟨d, rfl, by rw [decodedBuf_of_some hd]; rfl⟩
  | none => exact .inr ⟨rfl, by rw [decodedBuf_of_none hd]; rfl⟩

theorem byteAt_decodedBuf_outside (hcap : frame.length ≤ Config.cap) (h : Holds m 0 frame) (hi : frame.length ≤ i) :
    byteAt (decodedBuf m frame) i = byteAt m i :=
  byteAt_cobsDecodeAt (start := 0) (by rwa [Nat.zero_add]) (cobsDecodeAt_of_holds hcap h) (.inr (by rwa [Nat.zero_add]))

/-- A malformed frame's bytes hold no value. -/
theorem byteAt_decodedBuf_of_none (hd : cobsDecode frame = none) (hi : i < frame.length) :
    byteAt (decodedBuf m frame) i = none := by
  rw [decodedBuf_of_none hd, byteAt_eraseBytes, if_pos (by omega)]

/-- A frame that decodes holds no value in its leading slot, and the decoded bytes behind it. -/
theorem byteAt_decodedBuf_of_some (hcap : frame.length ≤ Config.cap) (hd : cobsDecode frame = some d)
    (hi : i < frame.length) : byteAt (decodedBuf m frame) i = if i = 0 then none else d[i]? := by
  rw [← length_cobsDecode hd] at hcap hi
  rw [decodedBuf_of_some hd]
  cases i with
  | zero => exact byteAt_decoded_leading
  | succ i =>
    have hbyte := byteAt_decoded (m := m) (a := 0) (by rwa [Nat.zero_add]) (Nat.le_add_left 1 i) hi
    rwa [Nat.zero_add] at hbyte

/-- Behind the leading slot of a frame that decodes stand the decoded bytes. -/
theorem byteAt_decodedBuf_region (hcap : frame.length ≤ Config.cap) (hd : cobsDecode frame = some d) (h1 : 1 ≤ i)
    (hi : i < frame.length) : byteAt (decodedBuf m frame) i = d[i]? :=
  (byteAt_decodedBuf_of_some hcap hd hi).trans (if_neg (by omega))

/-- The bytes left in the frame's place do not depend on the buffer the frame stood in. -/
theorem byteAt_decodedBuf_congr (hcap : frame.length ≤ Config.cap) (hi : i < frame.length) :
    byteAt (decodedBuf m frame) i = byteAt (decodedBuf m' frame) i := by
  cases hd : cobsDecode frame with
  | some d => rw [byteAt_decodedBuf_of_some hcap hd hi, byteAt_decodedBuf_of_some hcap hd hi]
  | none => rw [byteAt_decodedBuf_of_none hd hi, byteAt_decodedBuf_of_none hd hi]

/-! ### The gates after the decode -/

theorem getElem?_eq_some_getD (hi : i < d.length) : d[i]? = some (d.getD i 0) := by
  rw [List.getD, List.getElem?_eq_getElem hi, Option.getD_some]

/-- A part of a list that stands in the buffer, but for its first byte, reads as that part. -/
theorem loadBytes_of_region {a n : Nat} (hd : ∀ i, 1 ≤ i → i < d.length → byteAt m i = d[i]?) (ha : 1 ≤ a)
    (hlen : a + n ≤ d.length) (hcap : d.length ≤ Config.cap) : loadBytes m a n = .ok ((d.drop a).take n) := by
  refine loadBytes_eq_ok.2 ⟨by rw [List.length_take, List.length_drop]; omega, fun k hk => ⟨by omega, ?_⟩⟩
  rw [hd (a + k) (by omega) (by omega), List.getElem?_take_of_lt hk, List.getElem?_drop]

/-- The gates after the decode respond by the decoded bytes. -/
theorem parseBody_of_region (hd : ∀ i, 1 ≤ i → i < d.length → byteAt s.buf i = d[i]?) (hmin : 8 ≤ d.length)
    (hcap : d.length ≤ Config.cap) : parseBody (d.length - 6) s = respond (regionResponse d) s := by
  have hbody := loadBytes_of_region hd (a := 1) (n := d.length - 6) (by omega) (by omega) hcap
  have hstored : loadValue s.buf (1 + (d.length - 6)) 4 = .ok (leValue ((d.drop (d.length - 5)).take 4)) := by
    rw [show 1 + (d.length - 6) = d.length - 5 by omega]
    exact loadValue_eq_ok.2 ⟨_, loadBytes_of_region hd (by omega) (by omega) hcap, rfl⟩
  have hbyte (i : Nat) (h1 : 1 ≤ i) (hi : i < d.length) : loadByte s.buf i = .ok (d.getD i 0) :=
    loadByte_eq_ok.2 ⟨by omega, (hd i h1 hi).trans (getElem?_eq_some_getD hi)⟩
  have hhdr : Config.hdr = 2 := rfl
  have hroom : ¬ d.length - 6 < 2 := by omega
  simp only [parseBody, hbody, hstored, readThen_ok, hhdr, if_neg hroom, hbyte 1 (by omega) (by omega),
    hbyte 2 (by omega) (by omega), regionResponse, zext64, BitVec.ofNat_toNat]
  by_cases hcrc : (crc32 ((d.drop 1).take (d.length - 6))).toNat = leValue ((d.drop (d.length - 5)).take 4)
  · by_cases hsize : (d.getD 1 0).toNat + 2 = d.length - 6
    · rw [if_neg (not_not.2 hcrc), if_neg (not_not.2 hsize), if_pos ⟨hcrc.symm, hsize⟩]
    · rw [if_neg (not_not.2 hcrc), if_pos hsize, if_neg fun h => hsize h.2]
  · rw [if_pos hcrc, if_neg fun h => hcrc h.1.symm]

/-! ### The command -/

theorem exec_parse_of_incomplete (hc : s.complete = false) : exec .parse s = .next (Answered (some 0) s) :=
  if_pos (by rw [hc]; rfl)

theorem exec_parse_of_complete (hc : s.complete = true) :
    exec .parse s = if s.consumed then raiseFault .doubleParse s else parseFrame (s.setFramer s.size s.complete true) :=
  if_neg (by rw [hc]; decide)

theorem exec_parse_of_consumed (hc : s.complete = true) (hk : s.consumed = true) :
    exec .parse s = .next (FaultTaken .doubleParse s) :=
  (exec_parse_of_complete hc).trans (if_pos hk)

theorem exec_parse_of_unparsed (hc : s.complete = true) (hk : s.consumed = false) :
    exec .parse s = parseFrame (s.setFramer s.size s.complete true) :=
  (exec_parse_of_complete hc).trans (if_neg (by rw [hk]; decide))

theorem exec_parse_of_short (hc : s.complete = true) (hk : s.consumed = false) (hs : s.size.toNat < 8) :
    exec .parse s = .next ((s.setFramer s.size s.complete true).answer (some 0)) :=
  (exec_parse_of_unparsed hc hk).trans (if_pos hs)

/-- A frame of `MIN_FRAME` bytes or more goes to the decode. -/
theorem exec_parse_of_min_le (hc : s.complete = true) (hk : s.consumed = false) (hs : 8 ≤ s.size.toNat) :
    exec .parse s = readThen (cobsDecodeAt s.buf 0 s.size.toNat) fun d =>
      if d.1 then parseBody (s.size.toNat - 6) ((s.setFramer s.size s.complete true).setBuf d.2)
      else respond 0 ((s.setFramer s.size s.complete true).setBuf d.2) :=
  (exec_parse_of_unparsed hc hk).trans (if_neg (Nat.not_lt.2 hs))

theorem exec_parse_of_frame (h : HoldsFrame s frame) : exec .parse s = .next (parsedFrame s frame) := by
  rw [exec_parse_of_min_le h.complete h.consumed (h.length_eq ▸ h.min_le), ← h.length_eq,
    cobsDecodeAt_of_holds h.le_cap h.holds, readThen_ok]
  cases hd : cobsDecode frame with
  | none => rw [parsedFrame, frameResponse_of_none hd]; rfl
  | some d =>
    have hlen := length_cobsDecode hd
    have hregion : ∀ i, 1 ≤ i → i < d.length →
        byteAt ((s.setFramer s.size s.complete true).setBuf (decodedBuf s.buf frame)).buf i = d[i]? := fun i h1 hi =>
      byteAt_decodedBuf_region h.le_cap hd h1 (hlen ▸ hi)
    rw [parsedFrame, frameResponse_of_some hd, ← hlen]
    exact parseBody_of_region hregion (hlen ▸ h.min_le) (hlen ▸ h.le_cap)

/-- PARSE that answers meets an incomplete frame, a parsed one, a short one, or a whole frame. -/
theorem exec_parse_next (h : exec .parse s = .next t) :
    (s.complete = false ∧ t = s.answer (some 0)) ∨
      (s.complete = true ∧ s.consumed = true ∧ t = FaultTaken .doubleParse s) ∨
      (s.complete = true ∧ s.consumed = false ∧ s.size.toNat < 8 ∧
        t = (s.setFramer s.size s.complete true).answer (some 0)) ∨
      ∃ frame, HoldsFrame s frame ∧ t = parsedFrame s frame := by
  have answers {u : State} (hu : exec .parse s = .next u) : t = u := by rw [hu] at h; cases h; rfl
  obtain hc | hc := Bool.eq_false_or_eq_true s.complete
  case inr => exact .inl ⟨hc, answers (exec_parse_of_incomplete hc)⟩
  obtain hk | hk := Bool.eq_false_or_eq_true s.consumed
  case inl => exact .inr (.inl ⟨hc, hk, answers (exec_parse_of_consumed hc hk)⟩)
  by_cases hs : s.size.toNat < 8
  · exact .inr (.inr (.inl ⟨hc, hk, hs, answers (exec_parse_of_short hc hk hs)⟩))
  · have hmin : 8 ≤ s.size.toNat := Nat.le_of_not_lt hs
    obtain ⟨out, hout, -⟩ := readThen_next.1 ((exec_parse_of_min_le hc hk hmin).symm.trans h)
    obtain ⟨frame, hframe, -⟩ := cobsDecodeAt_eq_ok.1 hout
    obtain ⟨hlen, hget⟩ := loadBytes_eq_ok.1 hframe
    have hlast : 0 + (s.size.toNat - 1) < Config.cap := (hget (s.size.toNat - 1) (by omega)).1
    have hf : HoldsFrame s frame := ⟨hc, hk, hlen, by omega, by omega, holds_of_loadBytes hframe⟩
    exact .inr (.inr (.inr ⟨frame, hf, answers (exec_parse_of_frame hf)⟩))

/-- PARSE of a whole frame changes the frame's bytes and `CONSUMED`. -/
theorem parsedFrame_keeps (h : HoldsFrame s frame) :
    KeepsBytesOutside 0 frame.length s (parsedFrame s frame) ∧ KeepsCursor s (parsedFrame s frame) ∧
      KeepsHost s (parsedFrame s frame) ∧ KeepsFault s (parsedFrame s frame) :=
  ⟨fun _ hi => byteAt_decodedBuf_outside h.le_cap h.holds (by omega), ⟨rfl, rfl, rfl, rfl⟩, ⟨rfl, rfl⟩, ⟨rfl, rfl⟩⟩

/-- PARSE changes no byte but the frame's, and of the registers `CONSUMED` and the fault record. -/
theorem exec_parse_frame (h : exec .parse s = .next t) :
    KeepsBytesOutside 0 s.size.toNat s t ∧ t.size = s.size ∧ t.complete = s.complete ∧ KeepsCursor s t ∧
      KeepsHost s t ∧ KeepsFaultOr .doubleParse s t := by
  obtain ⟨-, rfl⟩ | ⟨-, -, rfl⟩ | ⟨-, -, -, rfl⟩ | ⟨frame, hf, rfl⟩ := exec_parse_next h
  case inl =>
    obtain ⟨hbytes, ⟨hsize, hcomplete, -⟩, hcursor, hhost, hfault⟩ := answer_frame s (some 0)
    exact ⟨fun i _ => hbytes i, hsize, hcomplete, hcursor, hhost, .inl hfault⟩
  case inr.inl =>
    obtain ⟨hbytes, ⟨hsize, hcomplete, -⟩, hcursor, hhost, hfault⟩ := faultTaken_frame s .doubleParse
    exact ⟨fun i _ => hbytes i, hsize, hcomplete, hcursor, hhost, hfault⟩
  case inr.inr.inl => exact ⟨fun _ _ => rfl, rfl, rfl, ⟨rfl, rfl, rfl, rfl⟩, ⟨rfl, rfl⟩, .inl ⟨rfl, rfl⟩⟩
  case inr.inr.inr =>
    obtain ⟨hbytes, hcursor, hhost, hfault⟩ := parsedFrame_keeps hf
    exact ⟨hf.length_eq ▸ hbytes, rfl, rfl, hcursor, hhost, .inl hfault⟩

/-! ### A frame that passes every gate -/

/-- Bytes are the little-endian bytes of the number they hold. -/
theorem leBytes_leValue (bs : List Byte) : leBytes bs.length (leValue bs) = bs := by
  induction bs with
  | nil => rfl
  | cons b bs ih =>
    have hb := b.isLt
    have hlow : BitVec.ofNat 8 (b.toNat + 256 * leValue bs) = b :=
      BitVec.eq_of_toNat_eq (by rw [BitVec.toNat_ofNat]; omega)
    have hrest : (b.toNat + 256 * leValue bs) / 256 = leValue bs := by omega
    rw [List.length_cons, leValue, leBytes, hlow, hrest, ih]

/-- A non-zero response is the id of a region with the body's CRC32 behind the body and a header size that counts its
payload. -/
theorem of_regionResponse_ne_zero (hmin : 8 ≤ d.length) (h : regionResponse d ≠ 0) :
    (d.drop (d.length - 5)).take 4 = leBytes 4 (crc32 ((d.drop 1).take (d.length - 6))).toNat ∧
      (d.getD 1 0).toNat + 2 = d.length - 6 ∧ regionResponse d = (d.getD 2 0).setWidth 64 := by
  unfold regionResponse at h ⊢
  split at h
  · next hgates =>
    obtain ⟨hcrc, hsize⟩ := hgates
    have hlen : ((d.drop (d.length - 5)).take 4).length = 4 := by rw [List.length_take, List.length_drop]; omega
    have hstored := leBytes_leValue ((d.drop (d.length - 5)).take 4)
    rw [hlen, hcrc] at hstored
    exact ⟨hstored.symm, hsize, if_pos ⟨hcrc, hsize⟩⟩
  · exact absurd rfl h

/-- A non-zero response comes from a frame that decodes. -/
theorem exists_region_of_frameResponse_ne_zero (h : frameResponse frame ≠ 0) :
    ∃ d, cobsDecode frame = some d ∧ frameResponse frame = regionResponse d := by
  cases hd : cobsDecode frame with
  | none => exact absurd (frameResponse_of_none hd) h
  | some d => exact ⟨d, rfl, frameResponse_of_some hd⟩

/-- A part of the decoded region stands in the buffer after the decode. -/
theorem holds_decodedBuf {a n : Nat} (hcap : frame.length ≤ Config.cap) (hd : cobsDecode frame = some d) (ha : 1 ≤ a)
    (hn : a + n ≤ frame.length) : Holds (decodedBuf m frame) a ((d.drop a).take n) := by
  have hlen := length_cobsDecode hd
  exact holds_of_loadBytes (loadBytes_of_region (fun i h1 hi => byteAt_decodedBuf_region hcap hd h1 (hlen ▸ hi)) ha
    (hlen ▸ hn) (hlen ▸ hcap))

end

/-- Settles O25: the test of `COMPLETE` comes first. -/
theorem parseOfAnIncompleteFrameRespondsZero : Obligations.ParseOfAnIncompleteFrameRespondsZero :=
  fun _ hc => exec_parse_of_incomplete hc

/-- Settles O26: the test of `CONSUMED` comes next. -/
theorem secondParseFaults : Obligations.SecondParseFaults := fun _ hc hk => exec_parse_of_consumed hc hk

/-- Settles O27: step (1) ends the command with `CONSUMED` set. -/
theorem shortFrameParsesToZero : Obligations.ShortFrameParsesToZero := fun _ hc hk hs =>
  ⟨_, exec_parse_of_short hc hk hs, rfl, rfl, rfl, rfl, fun _ => rfl, ⟨rfl, rfl, rfl, rfl⟩, ⟨rfl, rfl⟩, ⟨rfl, rfl⟩⟩

/-- Settles O28, by whether the frame decodes. -/
theorem parseChecksACompleteFrame : Obligations.ParseChecksACompleteFrame := by
  intro s frame hc hk hlen hmin hcap hbytes
  have hf : HoldsFrame s frame := ⟨hc, hk, hlen, hmin, hcap, hbytes⟩
  obtain ⟨hkeeps, hcursor, hhost, hfault⟩ := parsedFrame_keeps hf
  refine ⟨_, exec_parse_of_frame hf, rfl, rfl, rfl, hkeeps, hcursor, hfault, hhost, fun hd => ?malformed, fun d hd => ?decodes⟩
  case malformed =>
    exact ⟨by rw [← frameResponse_of_none hd]; rfl, fun i hi => byteAt_decodedBuf_of_none hd hi⟩
  case decodes =>
    have hresp := frameResponse_of_some hd
    rw [regionResponse, length_cobsDecode hd] at hresp
    exact ⟨byteAt_decodedBuf_of_some hcap hd (by omega), fun i h1 hi => byteAt_decodedBuf_region hcap hd h1 hi,
      by rw [← hresp]; rfl⟩

/-- Settles O29: of the four ends of PARSE only a whole frame gives a non-zero response, and then the frame decodes to a region
that passes the gates. -/
theorem nonzeroIdMeansAValidFrame : Obligations.NonzeroIdMeansAValidFrame := by
  intro s t v h hv hne
  have response_inj {r : Response} (hr : t.responses = s.responses ++ [r]) : r = some v := by
    simpa using hr.symm.trans hv
  obtain ⟨-, rfl⟩ | ⟨-, -, rfl⟩ | ⟨-, -, -, rfl⟩ | ⟨frame, hf, rfl⟩ := exec_parse_next h
  case inl | inr.inr.inl => exact absurd (Option.some.inj (response_inj rfl)).symm hne
  case inr.inl => cases response_inj rfl
  case inr.inr.inr =>
    obtain rfl : frameResponse frame = v := Option.some.inj (response_inj rfl)
    obtain ⟨d, hd, hresp⟩ := exists_region_of_frameResponse_ne_zero hne
    have hlen := length_cobsDecode hd
    have hmin : 8 ≤ d.length := hlen ▸ hf.min_le
    obtain ⟨hstored, hsize, hid⟩ := of_regionResponse_ne_zero hmin (hresp ▸ hne)
    have byte (i : Nat) (h1 : 1 ≤ i) (hi : i < d.length) : byteAt (parsedFrame s frame).buf i = some (d.getD i 0) :=
      (byteAt_decodedBuf_region hf.le_cap hd h1 (hlen ▸ hi)).trans (getElem?_eq_some_getD hi)
    rw [← hf.length_eq, ← hlen]
    refine ⟨hf.complete, hf.consumed, hmin, (d.drop 1).take (d.length - 6), d.getD 1 0, d.getD 2 0, ?_, ?_, ?_,
      byte 1 (by omega) (by omega), hsize, byte 2 (by omega) (by omega), hresp.trans hid⟩
    · rw [List.length_take, List.length_drop]
      omega
    · exact holds_decodedBuf hf.le_cap hd (by omega) (by omega)
    · rw [← hstored]
      exact holds_decodedBuf hf.le_cap hd (by omega) (by omega)

end Sys2Proof.Machine
end

section
/-! SUPPORT. PACKETIZE (44_packet.md R220 to R222): the frame it builds of the body in the buffer, and the block that holds it. -/

namespace Sys2Proof.Machine

/-- The frame of a body: body and little-endian CRC32, stuffed (44_packet.md R220). -/
def frameOf (body : List Byte) : List Byte := cobsEncode (body ++ leBytes 4 (crc32 body).toNat)

/-- The block holds a body that fits a frame: its header's size at `buf[1]`, and its bytes from there on. -/
structure HoldsBody (s : State) (sz : Byte) (body : List Byte) : Prop where
  size : byteAt s.buf 1 = some sz
  le_cap : sz.toNat + 8 ≤ Config.cap
  length_eq : body.length = sz.toNat + 2
  holds : Holds s.buf 1 body

/-- The buffer after PACKETIZE has stored the CRC32 behind the body and encoded both in place. -/
def packetizedBuf (m : Memory) (body : List Byte) : Memory :=
  storeBytes (storeValue m (1 + body.length) 4 (crc32 body).toNat) 0 (frameOf body)

/-- The state after PACKETIZE of a body: the frame held as if received (44_packet.md R222). -/
def packetized (s : State) (body : List Byte) : State :=
  ((s.setBuf (packetizedBuf s.buf body)).setFramer (BitVec.ofNat 9 (body.length + 6)) true false).answer
    (some (zext64 (body.length + 6)))

section

variable {s t : State} {m : Memory} {sz : Byte} {body : List Byte} {i : Nat}

@[simp] theorem length_frameOf (body : List Byte) : (frameOf body).length = body.length + 6 := by simp [frameOf]

theorem HoldsBody.length_frameOf_eq (h : HoldsBody s sz body) : (frameOf body).length = sz.toNat + 8 := by
  rw [length_frameOf, h.length_eq]

theorem HoldsBody.frame_le_cap (h : HoldsBody s sz body) : body.length + 6 ≤ Config.cap := by
  rw [h.length_eq]
  exact h.le_cap

/-! ### The buffer -/

theorem holds_packetizedBuf (hcap : body.length + 6 ≤ Config.cap) : Holds (packetizedBuf m body) 0 (frameOf body) :=
  holds_storeBytes (by rwa [Nat.zero_add, length_frameOf])

/-- PACKETIZE writes no byte behind the frame. -/
theorem byteAt_packetizedBuf_outside (hcap : body.length + 6 ≤ Config.cap) (hi : body.length + 6 ≤ i) :
    byteAt (packetizedBuf m body) i = byteAt m i := by
  rw [packetizedBuf, byteAt_storeBytes (by rwa [Nat.zero_add, length_frameOf]), length_frameOf, if_neg (by omega),
    byteAt_storeValue_outside (by omega) (by omega)]

/-- With the CRC32 stored, the interior of the frame to be stands in the buffer. -/
theorem holds_interior (hcap : body.length + 6 ≤ Config.cap) (h : Holds m 1 body) :
    Holds (storeValue m (1 + body.length) 4 (crc32 body).toNat) 1 (body ++ leBytes 4 (crc32 body).toNat) := by
  refine holds_append (fun k hk => ?_) (holds_storeBytes (by rw [length_leBytes]; omega))
  exact (byteAt_storeValue_outside (by omega) (by omega)).trans (h k hk)

theorem cobsEncodeAt_interior (hcap : body.length + 6 ≤ Config.cap) (h : Holds m 1 body) :
    cobsEncodeAt (storeValue m (1 + body.length) 4 (crc32 body).toNat) 0 (body.length + 6) =
      .ok (packetizedBuf m body) := by
  have hlen : (body ++ leBytes 4 (crc32 body).toNat).length = body.length + 4 := by simp
  have hload := loadBytes_of_holds (by omega) (holds_interior hcap h)
  rw [hlen] at hload
  exact cobsEncodeAt_eq_ok.2 ⟨_, hload, rfl⟩

/-! ### The command -/

theorem exec_packetize_of_body (h : HoldsBody s sz body) : exec .packetize s = .next (packetized s body) := by
  have hcap := h.frame_le_cap
  have hsz : loadByte s.buf 1 = .ok sz := loadByte_eq_ok.2 ⟨by decide, h.size⟩
  have hbody := loadBytes_of_holds (by omega) h.holds
  have henc := cobsEncodeAt_interior hcap h.holds
  rw [h.length_eq] at hcap hbody henc
  have hrange : 0 + frameLength sz.toNat ≤ Config.cap := by rw [Nat.zero_add]; exact h.le_cap
  refine readThen_next.2 ⟨sz, hsz, checkRange_next.2 (.inl ⟨hrange, readThen_next.2 ⟨body, hbody, ?_⟩⟩)⟩
  refine readThen_next.2 ⟨_, henc, ?_⟩
  rw [packetized, h.length_eq]
  rfl

/-- PACKETIZE that answers has found the frame too large, or has built it of the body in the buffer. -/
theorem exec_packetize_next (hsz : byteAt s.buf 1 = some sz) (h : exec .packetize s = .next t) :
    t = FaultTaken .capacityViolation s ∨ ∃ body, HoldsBody s sz body ∧ t = packetized s body := by
  obtain ⟨sz', hsz', h'⟩ := readThen_next.1 h
  obtain rfl : sz' = sz := Option.some.inj ((loadByte_eq_ok.1 hsz').2.symm.trans hsz)
  obtain ⟨hcap, h'⟩ | ⟨-, rfl⟩ := checkRange_next.1 h'
  case inr => exact .inl rfl
  obtain ⟨body, hbody, -⟩ := readThen_next.1 h'
  rw [Nat.zero_add] at hcap
  have hb : HoldsBody s sz' body := ⟨hsz, hcap, length_of_loadBytes hbody, holds_of_loadBytes hbody⟩
  rw [exec_packetize_of_body hb] at h
  cases h
  exact .inr ⟨body, hb, rfl⟩

/-- PACKETIZE changes the frame's bytes and the framer's registers. -/
theorem packetized_keeps (h : HoldsBody s sz body) :
    KeepsBytesOutside 0 (sz.toNat + 8) s (packetized s body) ∧ KeepsCursor s (packetized s body) ∧
      KeepsHost s (packetized s body) ∧ KeepsFault s (packetized s body) := by
  refine ⟨fun i hi => byteAt_packetizedBuf_outside h.frame_le_cap ?_, ⟨rfl, rfl, rfl, rfl⟩, ⟨rfl, rfl⟩, ⟨rfl, rfl⟩⟩
  rw [h.length_eq]
  omega

theorem toNat_size_packetized (h : HoldsBody s sz body) : (packetized s body).size.toNat = body.length + 6 :=
  toNat_ofNat_of_le_cap h.frame_le_cap

/-- PACKETIZE changes no byte but the frame's; neither the cursor nor, unless the frame is too large, the fault record. -/
theorem exec_packetize_frame (hsz : byteAt s.buf 1 = some sz) (h : exec .packetize s = .next t) :
    KeepsBytesOutside 0 (frameLength sz.toNat) s t ∧ KeepsCursor s t ∧ KeepsHost s t ∧
      KeepsFaultOr .capacityViolation s t := by
  obtain rfl | ⟨body, hb, rfl⟩ := exec_packetize_next hsz h
  · obtain ⟨hbytes, -, hcursor, hhost, hfault⟩ := faultTaken_frame s .capacityViolation
    exact ⟨fun i _ => hbytes i, hcursor, hhost, hfault⟩
  · obtain ⟨hbytes, hcursor, hhost, hfault⟩ := packetized_keeps hb
    exact ⟨hbytes, hcursor, hhost, .inl hfault⟩

end

/-- Settles O59, by the frame of each command. -/
theorem parseAndPacketizeFrame : Obligations.ParseAndPacketizeFrame :=
  fun _ _ => ⟨exec_parse_frame, fun _ hsz h => exec_packetize_frame hsz h⟩

/-- Settles O30: the state PACKETIZE leaves is complete, so it refuses a byte. -/
theorem packetizeBuildsTheFrame : Obligations.PacketizeBuildsTheFrame := by
  intro s body sz hsz hcap hlen hbody
  have hb : HoldsBody s sz body := ⟨hsz, hcap, hlen, hbody⟩
  obtain ⟨hbytes, hcursor, hhost, hfault⟩ := packetized_keeps hb
  have hresp : Answers (some (BitVec.ofNat 64 (sz.toNat + 8))) s (packetized s body) := by
    rw [Answers, packetized, hlen]
    rfl
  exact ⟨_, exec_packetize_of_body hb, holds_packetizedBuf hb.frame_le_cap, hbytes,
    (toNat_size_packetized hb).trans (by rw [hlen]), rfl, rfl, hresp, hcursor, hfault, hhost,
    fun b => exec_addb_of_refused b (.inl rfl)⟩

end Sys2Proof.Machine
end

section
/-! SUPPORT. A frame built, and parsed where it was built or where it was fed (44_packet.md R223). -/

namespace Sys2Proof.Machine

section

variable {s t u : State} {m : Memory} {sz id : Byte} {body payload bs frame : List Byte}

/-! ### Parsing the frame of a body -/

/-- The frame of a body decodes to the body and its CRC32. -/
theorem cobsDecode_frameOf (hcap : body.length + 6 ≤ Config.cap) :
    ∃ c, cobsDecode (frameOf body) = some (c :: (body ++ leBytes 4 (crc32 body).toNat ++ [0x00])) :=
  cobsDecode_cobsEncode (by simpa using hcap)

/-- A region with a body's CRC32 behind the body, and a header size that counts its payload, passes the gates. -/
theorem regionResponse_of_body (c : Byte) (hsize : payload.length = sz.toNat) :
    regionResponse (c :: ((sz :: id :: payload) ++ leBytes 4 (crc32 (sz :: id :: payload)).toNat ++ [0x00])) =
      id.setWidth 64 := by
  have hcrc : leValue (leBytes 4 (crc32 (sz :: id :: payload)).toNat) = (crc32 (sz :: id :: payload)).toNat := by
    rw [leValue_leBytes]
    exact Nat.mod_eq_of_lt (crc32 (sz :: id :: payload)).isLt
  simp [regionResponse, hsize, hcrc]

/-- A body that fits begins with its header: its size, which counts the bytes after the header, and its id. -/
theorem HoldsBody.eq_header (h : HoldsBody s sz body) (hid : byteAt s.buf 2 = some id) :
    ∃ payload, body = sz :: id :: payload ∧ payload.length = sz.toNat := by
  have hlen := h.length_eq
  match body, h with
  | x :: y :: payload, h =>
    obtain rfl : x = sz := Option.some.inj ((h.holds 0 (by simp)).symm.trans h.size)
    obtain rfl : y = id := Option.some.inj ((h.holds 1 (by simp)).symm.trans hid)
    exact ⟨payload, rfl, Nat.succ.inj (Nat.succ.inj hlen)⟩

/-- A block that holds the frame of a body parses it to the body's id, and then holds the body. -/
theorem parsedFrame_frameOf (hf : HoldsFrame u (frameOf (sz :: id :: payload))) (hsize : payload.length = sz.toNat) :
    Answers (some (id.setWidth 64)) u (parsedFrame u (frameOf (sz :: id :: payload))) ∧
      Holds (parsedFrame u (frameOf (sz :: id :: payload))).buf 1 (sz :: id :: payload) := by
  have hcap := hf.le_cap
  obtain ⟨c, hd⟩ := cobsDecode_frameOf (by rwa [length_frameOf] at hcap)
  refine ⟨?_, ?_⟩
  · rw [← regionResponse_of_body c hsize, ← frameResponse_of_some hd]
    rfl
  · have hregion := holds_decodedBuf (m := u.buf) (a := 1) (n := (sz :: id :: payload).length) hcap hd (by omega)
      (by simp; omega)
    rwa [List.drop_succ_cons, List.drop_zero, List.append_assoc, List.take_left' rfl] at hregion

/-- A packetized block holds the frame of its body. -/
theorem HoldsBody.holdsFrame (h : HoldsBody s sz body) : HoldsFrame (packetized s body) (frameOf body) where
  complete := rfl
  consumed := rfl
  length_eq := by rw [toNat_size_packetized h, length_frameOf]
  min_le := by rw [h.length_frameOf_eq]; omega
  le_cap := by rw [length_frameOf]; exact h.frame_le_cap
  holds := holds_packetizedBuf h.frame_le_cap

/-! ### Feeding a frame -/

theorem feed_cons (bs : List Byte) {b : Byte} (h : exec (.addb b) s = .next t) : feed (b :: bs) s = feed bs t := by
  rw [feed, h]

/-- Bytes other than the delimiter, and then the delimiter, fed where there is room for them: all are accepted, in order, and
the last completes the frame. -/
theorem feed_frame (hc : s.complete = false) (hz : 0x00 ∉ bs) (hcap : s.size.toNat + (bs.length + 1) ≤ Config.cap) :
    ∃ u, feed (bs ++ [0x00]) s = .next u ∧ u.buf = storeBytes s.buf s.size.toNat (bs ++ [0x00]) ∧
      u.size.toNat = s.size.toNat + (bs.length + 1) ∧ u.complete = true ∧ u.consumed = s.consumed ∧
      u.responses = s.responses ++ List.replicate (bs.length + 1) (some 1) := by
  induction bs generalizing s with
  | nil =>
    have hs : s.size.toNat < Config.cap := hcap
    exact ⟨_, feed_cons [] (exec_addb_of_room 0x00 hc hs), rfl, toNat_size_succ hs, completeAfter_delimiter s, rfl, rfl⟩
  | cons b bs ih =>
    rw [List.length_cons] at hcap
    have hs : s.size.toNat < Config.cap := by omega
    obtain ⟨hb, hz⟩ := List.ne_and_not_mem_of_not_mem_cons hz
    have hsize : (acceptedByte s b).size.toNat = s.size.toNat + 1 := toNat_size_succ hs
    have hc' : (acceptedByte s b).complete = false := (completeAfter_of_ne s (Ne.symm hb)).trans hc
    obtain ⟨u, hfeed, hbuf, husize, hcomplete, hconsumed, hresp⟩ := ih hc' hz (by omega)
    refine ⟨u, (feed_cons _ (exec_addb_of_room b hc hs)).trans hfeed, ?_, by rw [husize, hsize, List.length_cons]; omega,
      hcomplete, hconsumed, ?_⟩
    · rw [hbuf, hsize]
      rfl
    · rw [hresp, List.length_cons, List.replicate_succ (n := bs.length + 1), acceptedByte, answer_responses,
        setFramer_responses, setBuf_responses, List.append_assoc]
      rfl

/-- A frame has one delimiter, its last byte (42_cobs.md R163 (a)). -/
theorem frameOf_eq_concat (hcap : body.length + 6 ≤ Config.cap) : ∃ bs, frameOf body = bs ++ [0x00] ∧ 0x00 ∉ bs :=
  (chain_cobsEncode _ (by simpa using hcap)).eq_concat

/-- An empty block that is fed the frame of a body holds it. -/
theorem HoldsBody.feed_frameOf {a : State} (h : HoldsBody a sz body) (hsize : s.size = 0) (hc : s.complete = false)
    (hk : s.consumed = false) :
    ∃ u, feed (frameOf body) s = .next u ∧ HoldsFrame u (frameOf body) ∧
      u.responses = s.responses ++ List.replicate (frameOf body).length (some 1) := by
  have hcap : (frameOf body).length ≤ Config.cap := h.length_frameOf_eq ▸ h.le_cap
  have hmin : 8 ≤ (frameOf body).length := by rw [h.length_frameOf_eq]; omega
  have hempty : s.size.toNat = 0 := by rw [hsize]; rfl
  obtain ⟨bs, hbs, hz⟩ := frameOf_eq_concat h.frame_le_cap
  rw [hbs] at hcap hmin ⊢
  have hlen : (bs ++ [0x00]).length = bs.length + 1 := List.length_append
  obtain ⟨u, hfeed, hbuf, husize, hcomplete, hconsumed, hresp⟩ := feed_frame hc hz (by omega)
  rw [hempty] at hbuf husize
  have hholds : Holds u.buf 0 (bs ++ [0x00]) := hbuf ▸ holds_storeBytes (by rwa [Nat.zero_add])
  exact ⟨u, hfeed, ⟨hcomplete, hconsumed.trans hk, by omega, hmin, hcap, hholds⟩, hlen ▸ hresp⟩

end

/-- Settles O31: the packetized block holds the frame of its body. -/
theorem packetizeThenParseReturnsTheMessage : Obligations.PacketizeThenParseReturnsTheMessage := by
  intro s body sz id hsz hid hcap hlen hbody
  have hb : HoldsBody s sz body := ⟨hsz, hcap, hlen, hbody⟩
  obtain ⟨payload, rfl, hpayload⟩ := hb.eq_header hid
  obtain ⟨hresp, hholds⟩ := parsedFrame_frameOf hb.holdsFrame hpayload
  exact ⟨_, _, exec_packetize_of_body hb, exec_parse_of_frame hb.holdsFrame, hresp, hholds⟩

/-- Settles O32: the fed block holds the frame that the packetized one does. -/
theorem fedFrameParsesToTheMessageSent : Obligations.FedFrameParsesToTheMessageSent := by
  intro a b body sz id hsz hid hcap hlen hbody hsize hc hk
  have hb : HoldsBody a sz body := ⟨hsz, hcap, hlen, hbody⟩
  obtain ⟨payload, rfl, hpayload⟩ := hb.eq_header hid
  obtain ⟨u, hfeed, hu, hresponses⟩ := hb.feed_frameOf hsize hc hk
  obtain ⟨hresp, hholds⟩ := parsedFrame_frameOf hu hpayload
  exact ⟨_, u, _, _, exec_packetize_of_body hb, hb.length_frameOf_eq, hb.holdsFrame.holds, hfeed, hresponses,
    hu.length_eq.symm, hu.complete, exec_parse_of_frame hu, hresp, hholds⟩

end Sys2Proof.Machine
end

section
/-! SUPPORT. What ADDB and PARSE see of a block (44_packet.md R224): the framer's registers and the bytes below `SIZE`. Two
blocks alike in these answer alike and stay alike. -/

namespace Sys2Proof.Machine

/-- The framer's registers and the bytes received are the same in both blocks. -/
structure SameFrame (s s' : State) : Prop where
  size : s'.size = s.size
  complete : s'.complete = s.complete
  consumed : s'.consumed = s.consumed
  bytes : ∀ i, i < s.size.toNat → byteAt s'.buf i = byteAt s.buf i

section

variable {s s' t : State} {b : Byte} {bs frame : List Byte}

/-- A response changes nothing of the frame. -/
theorem SameFrame.answer (h : SameFrame s s') (r : Response) : SameFrame (s.answer r) (s'.answer r) :=
  ⟨h.size, h.complete, h.consumed, h.bytes⟩

/-- An accepted byte goes to the same place in both blocks. -/
theorem SameFrame.accept (h : SameFrame s s') (hs : s.size.toNat < Config.cap) (b : Byte) :
    SameFrame (acceptedByte s b) (acceptedByte s' b) where
  size := congrArg (· + 1) h.size
  complete := congrArg (· || b == Config.delimiter) h.complete
  consumed := h.consumed
  bytes i hi := by
    have hsize : (acceptedByte s b).size.toNat = s.size.toNat + 1 := toNat_size_succ hs
    rw [byteAt_acceptedByte hs, byteAt_acceptedByte (h.size ▸ hs), h.size]
    split
    · rfl
    · exact h.bytes i (by omega)

/-- ADDB answers alike in both blocks. -/
theorem SameFrame.exec_addb (h : SameFrame s s') (ht : exec (.addb b) s = .next t) :
    ∃ t', exec (.addb b) s' = .next t' ∧ SameFrame t t' := by
  obtain ⟨hr, rfl⟩ | ⟨hc, hs, rfl⟩ := exec_addb_next ht
  · rw [← h.complete, ← h.size] at hr
    exact ⟨_, exec_addb_of_refused b hr, h.answer _⟩
  · exact ⟨_, exec_addb_of_room b (h.complete.trans hc) (h.size ▸ hs), h.accept hs b⟩

/-- So does a whole feed. -/
theorem SameFrame.feed_next (h : SameFrame s s') (ht : feed bs s = .next t) :
    ∃ t', feed bs s' = .next t' ∧ SameFrame t t' := by
  induction bs generalizing s s' with
  | nil =>
    cases ht
    exact ⟨s', rfl, h⟩
  | cons b bs ih =>
    rw [feed] at ht
    split at ht
    · next u hu =>
      obtain ⟨u', hu', hsame⟩ := h.exec_addb hu
      rw [feed_cons bs hu']
      exact ih hsame ht
    · cases ht
    · cases ht

/-- Both blocks hold the same whole frame. -/
theorem SameFrame.holdsFrame (h : SameFrame s s') (hf : HoldsFrame s frame) : HoldsFrame s' frame where
  complete := h.complete.trans hf.complete
  consumed := h.consumed.trans hf.consumed
  length_eq := by rw [h.size, hf.length_eq]
  min_le := hf.min_le
  le_cap := hf.le_cap
  holds k hk := by
    rw [h.bytes (0 + k) (by rw [← hf.length_eq]; omega)]
    exact hf.holds k hk

/-- The parsed frame leaves the same bytes in both blocks. -/
theorem SameFrame.parsed (h : SameFrame s s') (hf : HoldsFrame s frame) :
    SameFrame (parsedFrame s frame) (parsedFrame s' frame) :=
  ⟨h.size, h.complete, rfl, fun _ hi => byteAt_decodedBuf_congr hf.le_cap (hf.length_eq ▸ hi)⟩

/-- PARSE answers alike in both blocks, with the same response. -/
theorem SameFrame.exec_parse (h : SameFrame s s') (ht : exec .parse s = .next t) :
    ∃ t' r, exec .parse s' = .next t' ∧ SameFrame t t' ∧ Answers r s t ∧ Answers r s' t' := by
  obtain ⟨hc, rfl⟩ | ⟨hc, hk, rfl⟩ | ⟨hc, hk, hs, rfl⟩ | ⟨frame, hf, rfl⟩ := exec_parse_next ht
  case inl => exact ⟨_, _, exec_parse_of_incomplete (h.complete.trans hc), h.answer _, rfl, rfl⟩
  case inr.inl =>
    exact ⟨_, _, exec_parse_of_consumed (h.complete.trans hc) (h.consumed.trans hk),
      ⟨h.size, h.complete, h.consumed, h.bytes⟩, rfl, rfl⟩
  case inr.inr.inl =>
    exact ⟨_, _, exec_parse_of_short (h.complete.trans hc) (h.consumed.trans hk) (h.size ▸ hs),
      ⟨h.size, h.complete, rfl, h.bytes⟩, rfl, rfl⟩
  case inr.inr.inr =>
    exact ⟨_, _, exec_parse_of_frame (h.holdsFrame hf), h.parsed hf, rfl, rfl⟩

/-- After RESET all blocks are alike: none has received a byte. -/
theorem sameFrame_reset (s s' : State) (r r' : Response) :
    SameFrame ((s.setFramer 0 false false).answer r) ((s'.setFramer 0 false false).answer r') :=
  ⟨rfl, rfl, rfl, fun _ hi => absurd hi (Nat.not_lt_zero _)⟩

end

/-- Settles O33: the two blocks are alike after RESET, and stay alike. -/
theorem reuseLeavesNoResidue : Obligations.ReuseLeavesNoResidue := by
  intro s r u v bs hr hu hv
  cases hr
  obtain ⟨u', hu', hsame⟩ := (sameFrame_reset s State.reset none none).feed_next hu
  obtain ⟨v', a, hv', hsame', ha, ha'⟩ := hsame.exec_parse hv
  have hlast : v'.responses.getLast? = v.responses.getLast? := by
    rw [ha, ha', List.getLast?_concat, List.getLast?_concat]
  exact ⟨_, u', v', exec_reset State.reset, hu', hv', hlast, hsame'.size, hsame'.complete, hsame'.bytes⟩

end Sys2Proof.Machine
end

section
/-! SUPPORT. The buffer port's two commands and CUROPEN (45_buffer_port.md R240, R241; 40_primitive_codec.md R102): the next
states they can answer, and what those leave unchanged. -/

namespace Sys2Proof.Machine

section

variable {s t : State} {a : Nat} {b : Byte} {r w : Bool}

theorem exec_bufrd_of_byteAt (ha : a < Config.cap) (h : byteAt s.buf a = some b) :
    exec (.bufrd a) s = .next (Answered (some (b.setWidth 64)) s) := by
  have hload : loadByte s.buf a = .ok b := loadByte_eq_ok.2 ⟨ha, h⟩
  rw [← zext64_of_toNat_eq rfl]
  exact checkRange_next.2 (.inl ⟨ha, readThen_next.2 ⟨b, hload, rfl⟩⟩)

theorem exec_bufwr_of_lt (s : State) (b : Byte) (ha : a < Config.cap) :
    exec (.bufwr a b) s = .next ((s.setBuf (storeByte s.buf a b)).answer none) :=
  checkRange_of_le ha

/-- BUFWR stores its byte inside the buffer, or takes `CAPACITY_VIOLATION`. -/
theorem exec_bufwr_next (h : exec (.bufwr a b) s = .next t) :
    (a < Config.cap ∧ t = (s.setBuf (storeByte s.buf a b)).answer none) ∨ t = FaultTaken .capacityViolation s := by
  obtain ⟨ha, h⟩ | ⟨-, rfl⟩ := checkRange_next.1 h
  · exact .inl ⟨ha, respondNone_next.1 h⟩
  · exact .inr rfl

/-- CUROPEN opens the cursor, or takes `CAPACITY_VIOLATION`. -/
theorem exec_curopen_next (h : exec (.curopen a r w) s = .next t) :
    t = (s.openCursor (BitVec.ofNat 9 a) r w).answer none ∨ t = FaultTaken .capacityViolation s := by
  obtain ⟨-, h⟩ | ⟨-, rfl⟩ := checkRange_next.1 h
  · exact .inl (respondNone_next.1 h)
  · exact .inr rfl

/-- A byte stored inside the buffer leaves the others alone. -/
theorem byteAt_storeByte_outside {m : Memory} {i : Nat} (ha : a < Config.cap) (b : Byte) (hi : i < a ∨ a + 1 ≤ i) :
    byteAt (storeByte m a b) i = byteAt m i := by
  rw [byteAt_storeByte ha, if_neg (by omega)]

theorem exec_bufwr_frame (h : exec (.bufwr a b) s = .next t) :
    KeepsBytesOutside a 1 s t ∧ KeepsFramer s t ∧ KeepsCursor s t ∧ KeepsHost s t ∧
      KeepsFaultOr .capacityViolation s t := by
  obtain ⟨ha, rfl⟩ | rfl := exec_bufwr_next h
  · obtain ⟨hframer, hcursor, hhost, hfault⟩ := setBuf_answer_frame s (storeByte s.buf a b) none
    exact ⟨fun _ hi => byteAt_storeByte_outside ha b hi, hframer, hcursor, hhost, .inl hfault⟩
  · obtain ⟨hbytes, hframer, hcursor, hhost, hfault⟩ := faultTaken_frame s .capacityViolation
    exact ⟨fun i _ => hbytes i, hframer, hcursor, hhost, hfault⟩

theorem exec_curopen_frame (h : exec (.curopen a r w) s = .next t) :
    KeepsBytes s t ∧ KeepsFramer s t ∧ KeepsHost s t ∧ KeepsFaultOr .capacityViolation s t := by
  obtain rfl | rfl := exec_curopen_next h
  · exact ⟨fun _ => rfl, ⟨rfl, rfl, rfl⟩, ⟨rfl, rfl⟩, .inl ⟨rfl, rfl⟩⟩
  · obtain ⟨hbytes, hframer, -, hhost, hfault⟩ := faultTaken_frame s .capacityViolation
    exact ⟨hbytes, hframer, hhost, hfault⟩

end

/-- Settles O57, by the frame of each command. -/
theorem bufwrAndCuropenFrame : Obligations.BufwrAndCuropenFrame :=
  fun _ _ _ => ⟨fun _ => exec_bufwr_frame, fun _ _ => exec_curopen_frame⟩

/-- Settles O34: an index below `CAP` passes the range check, BUFRD reads there and BUFWR stores there. -/
theorem bufferPortReadsAndWritesOneByte : Obligations.BufferPortReadsAndWritesOneByte := by
  intro s a b ha
  obtain ⟨hframer, hcursor, hhost, hfault⟩ := setBuf_answer_frame s (storeByte s.buf a b) none
  exact ⟨exec_bufrd_of_byteAt ha, _, exec_bufwr_of_lt s b ha, (byteAt_storeByte ha b a).trans (if_pos rfl),
    fun _ hi => byteAt_storeByte_outside ha b hi, rfl, hframer, hcursor, hfault, hhost⟩

end Sys2Proof.Machine
end

section
/-! SUPPORT. The end of a command (60_exceptions.md R250, R253): a command that answers gives one response and keeps the host's
side, one that takes a fault leaves exactly `FaultTaken`, and no command is refused. -/

namespace Sys2Proof.Machine

section

variable {s t : State} {i : Instr} {r : Response} {f : FaultName}

/-! ### Commands that answer -/

/-- A command that takes a fault has done nothing else: the other effects keep `FAULT`. -/
theorem Effect.eq_faultTaken (e : Effect s i t) (hs : s.fault = false) (ht : t.fault = true) :
    ∃ f, t = FaultTaken f s := by
  cases e with
  | doubleParse => exact ⟨.doubleParse, rfl⟩
  | packetizeTooLarge => exact ⟨.capacityViolation, rfl⟩
  | fault _ f => exact ⟨f, rfl⟩
  | reset | refuse | accept | parseIncomplete | parseFrame | packetize | respond | access | openCursor =>
    exact absurd (hs.symm.trans ht) Bool.false_ne_true

/-- Every effect ends in one response, and none writes the host's list or position. -/
theorem Effect.answers (e : Effect s i t) : ∃ r, Answers r s t ∧ KeepsHost s t := by
  cases e <;> exact ⟨_, rfl, rfl, rfl⟩

theorem eq_none_of_answers_faultTaken (h : Answers r s (FaultTaken f s)) : r = none :=
  (List.singleton_inj.1 (List.append_cancel_left h)).symm

/-! ### No command is refused -/

/-- The model gives the result a meaning. -/
def NotRefused (r : Result) : Prop := ∀ q, r ≠ .refused q

theorem next_notRefused (t : State) : NotRefused (.next t) := fun _ h => nomatch h

theorem fault_notRefused (f : Fault) : NotRefused (.fault f) := fun _ h => nomatch h

theorem ite_notRefused {p : Prop} [Decidable p] {r r' : Result} (h : NotRefused r) (h' : NotRefused r') :
    NotRefused (if p then r else r') := by
  split
  · exact h
  · exact h'

theorem readThen_notRefused {α : Type} {x : Except Fault α} {k : α → Result} (hk : ∀ v, NotRefused (k v)) :
    NotRefused (readThen x k) := by
  cases x with
  | ok v => exact hk v
  | error f => exact fault_notRefused f

theorem checkRange_notRefused {a n : Nat} {k : Result} (hk : NotRefused k) : NotRefused (checkRange a n s k) :=
  ite_notRefused hk (next_notRefused _)

theorem cursorWrite_notRefused (w v : Nat) (s : State) : NotRefused (cursorWrite w v s) :=
  ite_notRefused (next_notRefused _) (checkRange_notRefused (next_notRefused _))

theorem cursorRead_notRefused (w : Nat) (ext : Nat → Data) (s : State) : NotRefused (cursorRead w ext s) :=
  ite_notRefused (next_notRefused _) (checkRange_notRefused (readThen_notRefused fun _ => next_notRefused _))

theorem parseBody_notRefused (n : Nat) (s : State) : NotRefused (parseBody n s) :=
  readThen_notRefused fun _ => readThen_notRefused fun _ =>
    ite_notRefused (next_notRefused _) <| ite_notRefused (next_notRefused _) <| readThen_notRefused fun _ =>
      ite_notRefused (next_notRefused _) <| readThen_notRefused fun _ => next_notRefused _

theorem parseFrame_notRefused (s : State) : NotRefused (parseFrame s) :=
  ite_notRefused (next_notRefused _) <| readThen_notRefused fun _ =>
    ite_notRefused (parseBody_notRefused _ _) (next_notRefused _)

theorem exec_notRefused (i : Instr) (s : State) : NotRefused (exec i s) := by
  cases i with
  | reset | complete | status | curpos => exact next_notRefused _
  | addb => exact ite_notRefused (next_notRefused _) (ite_notRefused (next_notRefused _) (fault_notRefused _))
  | parse => exact ite_notRefused (next_notRefused _) (ite_notRefused (next_notRefused _) (parseFrame_notRefused _))
  | packetize =>
    exact readThen_notRefused fun _ => checkRange_notRefused <| readThen_notRefused fun _ => readThen_notRefused fun _ =>
      next_notRefused _
  | bufwr | curopen => exact checkRange_notRefused (next_notRefused _)
  | cobsenc =>
    exact checkRange_notRefused <| ite_notRefused (next_notRefused _) <| readThen_notRefused fun _ => next_notRefused _
  | bufrd | cobsdec | crc32 | crc16 => exact checkRange_notRefused (readThen_notRefused fun _ => next_notRefused _)
  | put8 | put16 | put32 | put64 => exact cursorWrite_notRefused _ _ s
  | getu8 | getu16 | getu32 | get64 | gets8 | gets16 | gets32 => exact cursorRead_notRefused _ _ s

/-- Only in a state with `SIZE > CAP` does a command reach past the buffer. -/
theorem cap_lt_size_of_outsideBuffer (h : exec i s = .fault .outsideBuffer) : Config.cap < s.size.toNat := by
  by_contra hsize
  obtain ⟨t, ht⟩ | hu := exec_endsInside i (Nat.le_of_not_lt hsize)
  · cases h.symm.trans ht
  · cases h.symm.trans hu

end

/-- Settles O16, by cases on the command's effect. -/
theorem faultEntryIsPrecise : Obligations.FaultEntryIsPrecise :=
  fun _ _ _ hs h ht => (exec_effect h).eq_faultTaken hs ht

/-- Settles O15, by the outcome: a next state by the command's effect, a fault by where commands stay inside the buffer. -/
theorem everyCommandAnswersExactlyOnce : Obligations.EveryCommandAnswersExactlyOnce := by
  intro i s
  cases h : exec i s with
  | next t =>
    have e := exec_effect h
    obtain ⟨r, hr, hhost⟩ := e.answers
    refine .inl ⟨t, r, rfl, hr, hhost, fun hs ht => ?_⟩
    obtain ⟨f, rfl⟩ := e.eq_faultTaken hs ht
    exact eq_none_of_answers_faultTaken hr
  | fault f =>
    cases f with
    | unwrittenRead => exact .inr (.inl rfl)
    | outsideBuffer => exact .inr (.inr ⟨rfl, cap_lt_size_of_outsideBuffer h⟩)
  | refused q => exact absurd h (exec_notRefused i s q)

end Sys2Proof.Machine
end

section
/-! SUPPORT. `UnwrittenRead` (60_exceptions.md R252): a read inside the buffer stops on a byte that holds no value, and the
command stops with its first such read. -/

namespace Sys2Proof.Machine

section

variable {s : State} {m : Memory} {a n : Nat}

/-! ### Reads -/

theorem loadByte_of_unwritten (ha : a < Config.cap) (h : byteAt m a = none) : loadByte m a = .error .unwrittenRead := by
  simp only [loadByte, ha, if_true, h]

theorem loadValue_of_hasUnwritten (hcap : a + n ≤ Config.cap) (h : HasUnwritten m a n) :
    loadValue m a n = .error .unwrittenRead := by
  rw [loadValue, loadBytes_of_hasUnwritten hcap h]

/-- The encoder reads the interior of its range only (42_cobs.md R161). -/
theorem cobsEncodeAt_of_hasUnwritten (h2 : 2 ≤ n) (hcap : a + n ≤ Config.cap) (h : HasUnwritten m (a + 1) (n - 2)) :
    cobsEncodeAt m a n = .error .unwrittenRead := by
  rw [cobsEncodeAt, loadBytes_of_hasUnwritten (by omega) h]

theorem cobsDecodeAt_of_hasUnwritten (hcap : a + n ≤ Config.cap) (h : HasUnwritten m a n) :
    cobsDecodeAt m a n = .error .unwrittenRead := by
  rw [cobsDecodeAt, loadBytes_of_hasUnwritten hcap h]

/-! ### Commands -/

/-- A command stops in the fault its read raises. -/
theorem readThen_of_error {α : Type} {x : Except Fault α} {k : α → Result} {f : Fault} (h : x = .error f) :
    readThen x k = .fault f :=
  readThen_fault.2 (.inl h)

/-- A read behind a range check that passes. -/
theorem checkedRead_of_error {α : Type} {x : Except Fault α} {k : α → Result} {f : Fault} (hcap : a + n ≤ Config.cap)
    (h : x = .error f) : checkRange a n s (readThen x k) = .fault f :=
  (checkRange_of_le hcap).trans (readThen_of_error h)

theorem execCobsenc_of_hasUnwritten (h2 : 2 ≤ n) (hcap : a + n ≤ Config.cap) (h : HasUnwritten s.buf (a + 1) (n - 2)) :
    execCobsenc a n s = .fault .unwrittenRead := by
  rw [execCobsenc, checkRange_of_le hcap, if_neg (Nat.not_lt.2 h2)]
  exact readThen_of_error (cobsEncodeAt_of_hasUnwritten h2 hcap h)

theorem cursorRead_of_hasUnwritten {w : Nat} {ext : Nat → Data} (hr : s.curR = true) (hcap : cursorAddr s + w ≤ Config.cap)
    (h : HasUnwritten s.buf (cursorAddr s) w) : cursorRead w ext s = .fault .unwrittenRead := by
  rw [cursorRead, if_neg (by rw [hr]; decide)]
  exact checkedRead_of_error hcap (loadValue_of_hasUnwritten hcap h)

/-- With the header size read and the frame found to fit, PACKETIZE reads the body next (60_exceptions.md R255). -/
theorem execPacketize_of_hasUnwritten {sz : Byte} (hsz : byteAt s.buf 1 = some sz) (hcap : sz.toNat + 8 ≤ Config.cap)
    (h : HasUnwritten s.buf 1 (sz.toNat + 2)) : execPacketize s = .fault .unwrittenRead := by
  have hload : loadByte s.buf 1 = .ok sz := loadByte_eq_ok.2 ⟨by decide, hsz⟩
  have hframe : 0 + frameLength sz.toNat ≤ Config.cap := (Nat.zero_add _).trans_le hcap
  have hbody : 1 + (sz.toNat + 2) ≤ Config.cap := by omega
  rw [execPacketize, hload, readThen_ok]
  exact checkedRead_of_error hframe (loadBytes_of_hasUnwritten hbody h)

end

/-- Settles O19: each command's first read that meets the byte is the one that stops it. -/
theorem readingAnUnwrittenByteStops : Obligations.ReadingAnUnwrittenByteStops := by
  intro s
  refine ⟨fun a ha h => ?bufrd, fun a n hcap h => ⟨?crc32, ?cobsdec, fun seed => ?crc16⟩,
    fun a n hcap h2 h => ?cobsenc, fun hr => ?gets, fun h => ?header, fun sz hsz hcap h => ?body,
    fun hc hk hmin hcap h => ?parse⟩
  case bufrd => exact checkedRead_of_error ha (loadByte_of_unwritten ha h)
  case crc32 | crc16 => exact checkedRead_of_error hcap (loadBytes_of_hasUnwritten hcap h)
  case cobsdec => exact checkedRead_of_error hcap (cobsDecodeAt_of_hasUnwritten hcap h)
  case cobsenc => exact execCobsenc_of_hasUnwritten h2 hcap h
  case gets =>
    exact ⟨fun hcap h => ⟨cursorRead_of_hasUnwritten hr hcap h, cursorRead_of_hasUnwritten hr hcap h⟩,
      fun hcap h => ⟨cursorRead_of_hasUnwritten hr hcap h, cursorRead_of_hasUnwritten hr hcap h⟩,
      fun hcap h => ⟨cursorRead_of_hasUnwritten hr hcap h, cursorRead_of_hasUnwritten hr hcap h⟩,
      fun hcap h => cursorRead_of_hasUnwritten hr hcap h⟩
  case header => exact readThen_of_error (loadByte_of_unwritten (by decide) h)
  case body => exact execPacketize_of_hasUnwritten hsz hcap h
  case parse =>
    rw [exec_parse_of_min_le hc hk hmin]
    exact readThen_of_error (cobsDecodeAt_of_hasUnwritten (by rwa [Nat.zero_add]) h)

end Sys2Proof.Machine
end

section
/-! SUPPORT. A step with nothing to execute, and the gate of a faulted block (60_exceptions.md R254, R264): the exact STATUS word
executes, and every other word is turned away. -/

namespace Sys2Proof.Machine

section

variable {s : State} {w : CommandWord} {d : Data}

theorem step_idle (h : s.hostEvents = []) : step s = .next s := by
  simp only [step, serveHost, h]

theorem issue_status_of_fault (hf : s.fault = true) : issue statusCommandWord d s = exec .status s := by
  simp [issue, hf]

theorem issue_other_of_fault (hf : s.fault = true) (hw : w ≠ statusCommandWord) :
    issue w d s = .next (Answered none s) := by
  rw [issue, if_pos hf, if_neg hw]
  rfl

/-- A faulted block does no more with a word than give a response: STATUS too changes nothing else (44_packet.md R206). -/
theorem issue_of_fault (w : CommandWord) (d : Data) (hf : s.fault = true) : ∃ r, issue w d s = .next (s.answer r) := by
  by_cases hw : w = statusCommandWord
  · exact ⟨_, hw ▸ issue_status_of_fault hf⟩
  · exact ⟨none, issue_other_of_fault hf hw⟩

end

/-- Settles O10. -/
theorem idleBlockKeepsItsState : Obligations.IdleBlockKeepsItsState := fun _ h => step_idle h

/-- Settles O9: the gate turns away every word but STATUS, and an idle step or a response leaves the fault record. -/
theorem faultedBlockExecutesOnlyStatus : Obligations.FaultedBlockExecutesOnlyStatus := by
  refine ⟨fun s w d rest hf hev => ?gate, fun s t ht hf hpor => ?sticky⟩
  case gate =>
    have hf' : (Presented s rest).fault = true := hf
    rw [step_command hev]
    exact ⟨fun hw => hw ▸ issue_status_of_fault hf', issue_other_of_fault hf'⟩
  case sticky =>
    cases hev : s.hostEvents with
    | nil =>
      cases (step_idle hev).symm.trans ht
      exact ⟨hf, rfl⟩
    | cons e rest =>
      cases e with
      | command w d =>
        obtain ⟨r, hr⟩ := issue_of_fault (s := Presented s rest) w d hf
        cases ((step_command hev).trans hr).symm.trans ht
        exact ⟨hf, rfl⟩
      | powerOnReset => exact absurd hev (hpor rest)

end Sys2Proof.Machine
end

section
/-! SUPPORT. A step on power-on reset (70_reset_and_hazards.md R270, R271). -/

namespace Sys2Proof.Machine

/-- The block takes power-on reset in every state, the faulted ones too: the event passes no gate. -/
theorem step_powerOnReset {s : State} {rest : List HostEvent} (h : s.hostEvents = .powerOnReset :: rest) :
    step s = .next (s.powerOnReset rest) := by
  rw [step, serveHost, h]

/-- Settles O11: the step answers `State.powerOnReset`, which takes every field of the block from `State.reset`. -/
theorem powerOnResetGivesTheTablesValues : Obligations.PowerOnResetGivesTheTablesValues := by
  refine ⟨fun s rest hev => ⟨s.powerOnReset rest, step_powerOnReset hev, ?_⟩, ?_⟩
  · have hempty : (s.powerOnReset rest).framerState = .empty := framerState_eq_empty.2 ⟨rfl, rfl⟩
    simp [hempty]
  · exact ⟨byteAt_nil, rfl, rfl, rfl, rfl, rfl, rfl, rfl, rfl, rfl⟩

end Sys2Proof.Machine
end
